-- ==== Sys2Proof/Word.lean ====
section
/-! DEFINITION. The words of P80E (spec/00_scope.md R5, R7): unsigned bit vectors, bit 0 the least
significant. -/

namespace Sys2Proof

/-- A byte of a buffer register (R9). -/
abbrev Byte := BitVec 8

/-- A command word, the 32 bits a host writes to CMD (R80). -/
abbrev Word := BitVec 32

/-- A block, a round key or the state S: 64 bits (R5). -/
abbrev Block := BitVec 64

/-- A key, the key-schedule register or UR: 80 bits (R5). -/
abbrev KeyReg := BitVec 80

end Sys2Proof
end

