-- ==== Sys2Proof/Syntax.lean ====
section
/-! DEFINITION. The commands of P80E, one constructor per row of spec/opcode_table.json (R83), and the
byte-order tag. -/

namespace Sys2Proof

/-- The byte-order tag, field E of a command word: `big` is 0, `little` is 1 (R56). -/
inductive ByteOrder where
  | big
  | little
  deriving DecidableEq, Repr

/-- The twelve commands (R83). A length, an index, an amount and a width are the 8-bit fields N, A and W
taken as they stand, as numbers (R88); `Instr.WellFormed` bounds them. -/
inductive Instr where
  /-- NOP (R174). -/
  | nop
  /-- LDKEY order, len (R121). -/
  | ldkey (e : ByteOrder) (len : Nat)
  /-- KSCHED (R136). -/
  | ksched
  /-- ENC order, len (R181). -/
  | enc (e : ByteOrder) (len : Nat)
  /-- LDBLK order, len (R182). -/
  | ldblk (e : ByteOrder) (len : Nat)
  /-- STBLK order (R183). -/
  | stblk (e : ByteOrder)
  /-- ADDRK n (R159). -/
  | addrk (n : Nat)
  /-- SBOXL (R157). -/
  | sboxl
  /-- PERML (R158). -/
  | perml
  /-- RDRK order, n (R138). -/
  | rdrk (e : ByteOrder) (n : Nat)
  /-- ROL bits, width (R107). -/
  | rol (bits width : Nat)
  /-- ROR bits, width (R109). -/
  | ror (bits width : Nat)
  deriving DecidableEq, Repr

end Sys2Proof
end

