-- ==== Sys2Proof/WellFormed.lean ====
section
/-! DEFINITION. Which terms of `Instr` are commands a 32-bit word can carry: every number fits its
8-bit field (R81, R88). A well-formed command may still raise a size or operand error when executed. -/

namespace Sys2Proof

/-- A number that fits an 8-bit field of the command word (R81). -/
def fitsField (n : Nat) : Bool := n < 256

/-- The check: every number of the command fits its field. -/
def Instr.wf : Instr → Bool
  | .nop => true
  | .ldkey _ len => fitsField len
  | .ksched => true
  | .enc _ len => fitsField len
  | .ldblk _ len => fitsField len
  | .stblk _ => true
  | .addrk n => fitsField n
  | .sboxl => true
  | .perml => true
  | .rdrk _ n => fitsField n
  | .rol bits width => fitsField bits && fitsField width
  | .ror bits width => fitsField bits && fitsField width

/-- The check as a proposition. -/
abbrev Instr.WellFormed (i : Instr) : Prop := i.wf = true

end Sys2Proof
end

