-- ==== Sys2Proof/Decode.lean ====
section
/-! DEFINITION. The command word: its fields (R81), the opcode map (R83), decoding (R84) and the
encoder (R90). Decoding reads no state and is total. -/

namespace Sys2Proof

/-- Field OP, bits 31:28 (R81). -/
def fieldOp (c : Word) : BitVec 4 := c.extractLsb' 28 4

/-- Field Z, bits 27:25, reserved (R81). -/
def fieldZ (c : Word) : BitVec 3 := c.extractLsb' 25 3

/-- Field E, bit 24: 0 is big, 1 is little (R81, R56). -/
def fieldE (c : Word) : ByteOrder := if c.getLsbD 24 then .little else .big

/-- Field A, bits 23:16, as a number (R81, R88). -/
def fieldA (c : Word) : Nat := (c.extractLsb' 16 8).toNat

/-- Field W, bits 15:8, as a number (R81, R88). -/
def fieldW (c : Word) : Nat := (c.extractLsb' 8 8).toNat

/-- Field N, bits 7:0, as a number (R81, R88). -/
def fieldN (c : Word) : Nat := (c.extractLsb' 0 8).toNat

/-- A row of the opcode map: the mask of the fixed bits, their value, and the command the operand
fields E, A, W, N make (R82, R83). -/
structure OpRow where
  mask : Word
  pattern : Word
  build : ByteOrder → Nat → Nat → Nat → Instr

/-- The opcode map (R83), in its order. -/
def opcodeMap : List OpRow :=
  [ ⟨0xFFFFFFFF, 0x00000000, fun _ _ _ _ => .nop⟩,
    ⟨0xFEFFFF00, 0x10000000, fun e _ _ n => .ldkey e n⟩,
    ⟨0xFFFFFFFF, 0x20000000, fun _ _ _ _ => .ksched⟩,
    ⟨0xFEFFFF00, 0x30000000, fun e _ _ n => .enc e n⟩,
    ⟨0xFEFFFF00, 0x40000000, fun e _ _ n => .ldblk e n⟩,
    ⟨0xFEFFFFFF, 0x50000000, fun e _ _ _ => .stblk e⟩,
    ⟨0xFFFFFF00, 0x60000000, fun _ _ _ n => .addrk n⟩,
    ⟨0xFFFFFFFF, 0x70000000, fun _ _ _ _ => .sboxl⟩,
    ⟨0xFFFFFFFF, 0x80000000, fun _ _ _ _ => .perml⟩,
    ⟨0xFEFFFF00, 0x90000000, fun e _ _ n => .rdrk e n⟩,
    ⟨0xFF0000FF, 0xA0000000, fun _ a w _ => .rol a w⟩,
    ⟨0xFF0000FF, 0xB0000000, fun _ a w _ => .ror a w⟩ ]

/-- A word selects a row when its fixed bits have the row's value (R83). -/
def selects (c : Word) (r : OpRow) : Bool := c &&& r.mask == r.pattern

/-- Why a word is illegal (R85, R86). -/
inductive IllegalWord where
  /-- An opcode 0xC to 0xF (R85). -/
  | reservedOpcode
  /-- A non-zero bit in Z or in a field the command's format does not list (R86). -/
  | reservedField
  deriving DecidableEq, Repr

/-- What a word decodes to: a command, or the spec's ILLEGAL (R84). -/
inductive Decoded where
  | command (i : Instr)
  | illegal (why : IllegalWord)
  deriving DecidableEq, Repr

/-- The name of the reason a word that selects no row is illegal (R85, R86). -/
def illegalReason (c : Word) : IllegalWord :=
  if 0xC#4 ≤ fieldOp c then .reservedOpcode else .reservedField

/-- decode(c) (R84): the first row the word selects, with its operand fields; ILLEGAL if none. -/
def decode (c : Word) : Decoded :=
  match opcodeMap.find? (selects c) with
  | some r => .command (r.build (fieldE c) (fieldA c) (fieldW c) (fieldN c))
  | none => .illegal (illegalReason c)

/-- The bit of a byte-order tag (R56). -/
def orderBit : ByteOrder → BitVec 1
  | .big => 0#1
  | .little => 1#1

/-- The fields of R81 laid side by side, bit 31 first, Z zero. -/
def assemble (op : BitVec 4) (e : ByteOrder) (a w n : Nat) : Word :=
  op ++ 0#3 ++ orderBit e ++ BitVec.ofNat 8 a ++ BitVec.ofNat 8 w ++ BitVec.ofNat 8 n

/-- The word of a well-formed command (R82, R90); a field the format does not list is 0. -/
def encode : Instr → Word
  | .nop => assemble 0x0 .big 0 0 0
  | .ldkey e len => assemble 0x1 e 0 0 len
  | .ksched => assemble 0x2 .big 0 0 0
  | .enc e len => assemble 0x3 e 0 0 len
  | .ldblk e len => assemble 0x4 e 0 0 len
  | .stblk e => assemble 0x5 e 0 0 0
  | .addrk n => assemble 0x6 .big 0 0 n
  | .sboxl => assemble 0x7 .big 0 0 0
  | .perml => assemble 0x8 .big 0 0 0
  | .rdrk e n => assemble 0x9 e 0 0 n
  | .rol bits width => assemble 0xA .big bits width 0
  | .ror bits width => assemble 0xB .big bits width 0

/-- The command word whose low `nbits` bits are those of `w`, the bits above them 0. Every command is
one 32-bit word (R80). -/
def tableWord (nbits w : Nat) : Word := BitVec.ofNat 32 (w % 2 ^ nbits)

/-- The command the decoder reads from an opcode-table word. -/
def decodeTableWord (nbits w : Nat) : Option Instr :=
  match decode (tableWord nbits w) with
  | .command i => some i
  | .illegal _ => none

end Sys2Proof
end

