-- ==== Sys2Proof/Config.lean ====
section
/-! DEFINITION. The parameters spec/00_scope.md R5 fixes, and the free values: what the data registers
hold after a reset step (spec/10_state.md R42; log 5). The OPEN parameters no rule depends on are left
out (logs 6 to 8). -/

namespace Sys2Proof.Config

/-- KEY_BYTES: the only key length LDKEY accepts (R5, R61). -/
def keyBytes : Nat := 10

/-- BLOCK_BYTES: the only block length ENC and LDBLK accept (R5, R61). -/
def blockBytes : Nat := 8

/-- NROUNDS: round keys, and iterations of the encryption loop (R5). -/
def nRounds : Nat := 32

/-- NFULL: iterations with substitution and permutation, and updates of the key register (R5). -/
def nFull : Nat := 31

/-- KS_ROT: the key schedule's right rotation (R5). -/
def ksRot : Nat := 19

/-- KS_CTR_LO: the lowest bit that takes the round counter (R5). -/
def ksCtrLo : Nat := 15

/-- MAXW: the widest rotation ROL and ROR accept (R5, R108). -/
def maxWidth : Nat := 80

/-! Free values. No body: nothing can be proved about them. The first argument is the draw (R42: two
resets need not leave the same value), the second the element of an array register. -/

/-- KIN[j] after reset `draw` (log 5). -/
opaque resetKin (draw j : Nat) : Byte

/-- DIN[j] after reset `draw` (log 5). -/
opaque resetDin (draw j : Nat) : Byte

/-- DOUT[j] after reset `draw` (log 5). -/
opaque resetDout (draw j : Nat) : Byte

/-- UR after reset `draw` (log 5). -/
opaque resetUr (draw : Nat) : KeyReg

/-- KEY after reset `draw` (log 5). -/
opaque resetKey (draw : Nat) : KeyReg

/-- KR after reset `draw` (log 5). -/
opaque resetKr (draw : Nat) : KeyReg

/-- RK[n] after reset `draw` (log 5). -/
opaque resetRk (draw n : Nat) : Block

/-- S after reset `draw` (log 5). -/
opaque resetS (draw : Nat) : Block

end Sys2Proof.Config
end

