-- ==== Sys2Proof/Machine/Cipher.lean ====
section
/-! DEFINITION. The pure functions of the cipher (R11): rotations (spec/40_rotate.md), the boxes and
layers (spec/43_round_function.md), the key schedule (spec/42_key_schedule.md) and the encryption
function (spec/44_engine.md). Nothing here reads or writes state. -/

namespace Sys2Proof.Machine

/-- rol(w, v, b): rotate left by `b mod w` (R104). The domain w >= 1 is a precondition (R100, U1); the
type bounds v. -/
def rol (w : Nat) (_pos : 0 < w) (v : BitVec w) (b : Nat) : BitVec w :=
  let r := b % w
  if r = 0 then v else (v <<< r) + (v >>> (w - r))

/-- ror(w, v, b): rotate right by `b mod w` (R105). -/
def ror (w : Nat) (_pos : 0 < w) (v : BitVec w) (b : Nat) : BitVec w :=
  let r := b % w
  if r = 0 then v else (v >>> r) + (v <<< (w - r))

/-- The substitution box, indexed by the input (R150). -/
def sboxTable : Vector (BitVec 4) 16 :=
  #v[0xC, 0x5, 0x6, 0xB, 0x9, 0x0, 0xA, 0xD, 0x3, 0xE, 0xF, 0x8, 0x4, 0x7, 0x1, 0x2]

/-- sbox(x) (R150). -/
def sbox (x : BitVec 4) : BitVec 4 := sboxTable[x.toNat]'(x.isLt)

/-- Nibble j of a block (R9). -/
def nibble (s : Block) (j : Nat) : BitVec 4 := s.extractLsb' (4 * j) 4

/-- The nibbles 0 .. n-1 of sboxlayer(s), the others 0 (R152). -/
def sboxNibbles (s : Block) : Nat → Block
  | 0 => 0#64
  | j + 1 => sboxNibbles s j ||| ((sbox (nibble s j)).setWidth 64 <<< (4 * j))

/-- sboxlayer(s) (R152). -/
def sboxlayer (s : Block) : Block := sboxNibbles s 16

/-- pbox(4k + r) = 16r + k (R153). -/
def pbox (p : Nat) : Nat := 16 * (p % 4) + p / 4

/-- The bits 0 .. n-1 of s, each moved to position pbox(p), the others 0 (R154). -/
def movedBits (s : Block) : Nat → Block
  | 0 => 0#64
  | p + 1 => movedBits s p ||| ((s.extractLsb' p 1).setWidth 64 <<< pbox p)

/-- player(s) (R154). -/
def player (s : Block) : Block := movedBits s 64

/-- addrk(s, k) (R156). -/
def addrk (s k : Block) : Block := s ^^^ k

/-- roundkey(kr) = kr[79:16] (R132). -/
def roundkey (kr : KeyReg) : Block := kr.extractLsb' 16 64

/-- ksupdate(kr, i), for a round counter i in 1..31 (R133, V8). -/
def ksupdate (kr : KeyReg) (i : Nat) (_range : 1 ≤ i ∧ i ≤ 31) : KeyReg :=
  let a := ror 80 (by decide) kr Config.ksRot
  let b := sbox (a.extractLsb' 76 4) ++ a.extractLsb' 0 76
  b ^^^ (BitVec.ofNat 80 i <<< Config.ksCtrLo)

/-- The key register after n updates, the loop of R134. -/
def krAfter (key : KeyReg) : (n : Nat) → n ≤ 31 → KeyReg
  | 0, _ => key
  | i + 1, h => ksupdate (krAfter key i (by omega)) (i + 1) (by omega)

/-- keyschedule(key): rk[n] is the round key of the register after n - 1 updates; rk[n] stands at index
n - 1 (R134). -/
def keyschedule (key : KeyReg) : Vector Block 32 :=
  Vector.ofFn fun j => roundkey (krAfter key j (by omega))

/-- What schedule generation leaves in KR: the register after update 31 (R134). -/
def finalKr (key : KeyReg) : KeyReg := krAfter key 31 (by decide)

/-- RK[n], n in 1..32; there is no RK[0] (R27). -/
def roundKeyAt (rk : Vector Block 32) (n : Nat) (h : 1 ≤ n ∧ n ≤ 32) : Block := rk[n - 1]'(by omega)

/-- The block after iteration i of the encryption loop (R180). -/
def blockAfter (rk : Vector Block 32) (s : Block) : (i : Nat) → i ≤ 32 → Block
  | 0, _ => s
  | i + 1, h =>
    let mixed := addrk (blockAfter rk s i (by omega)) (roundKeyAt rk (i + 1) (by omega))
    if i + 1 ≠ 32 then player (sboxlayer mixed) else mixed

/-- encrypt_int(rk, s) (R180). -/
def encryptInt (rk : Vector Block 32) (s : Block) : Block := blockAfter rk s 32 (by decide)

end Sys2Proof.Machine
end

