-- ==== Sys2Proof/Machine/State.lean ====
section
/-! DEFINITION. The state of one P80E instance (spec/10_state.md R20), the host steps it takes (R6,
R51), the reasons a step can stop, and the state after reset (R42). -/

namespace Sys2Proof.Machine

/-- PHASE, the life-cycle phase (R31). -/
inductive Phase where
  | empty
  | initialized
  | ready
  | complete
  deriving DecidableEq, Repr

/-- ERR, the result of the last command word other than NOP (R32, R200). -/
inductive Err where
  /-- Code 0: it completed. -/
  | noError
  /-- Code 1 (R201). -/
  | invalidKeySize
  /-- Code 2 (R202). -/
  | invalidBlockSize
  /-- Code 3, kept for a platform's key generator; P80E never raises it (R203). -/
  | invalidArgument
  /-- Code 4 (R204). -/
  | noKey
  /-- Code 5 (R205). -/
  | illegalCommand
  /-- Code 6 (R207). -/
  | invalidOperand
  deriving DecidableEq, Repr

/-- A value on the host port: one whole register of one of the three widths (R62). -/
inductive BusValue where
  | byte (v : Byte)
  | word (v : Word)
  | wide (v : KeyReg)
  deriving DecidableEq, Repr

/-- A step the host issues (R6, R51): a read or a write of a register number (R52), or reset (R230). -/
inductive HostStep where
  | read (number : Nat)
  | write (number : Nat) (value : BusValue)
  | reset
  deriving DecidableEq, Repr

/-- Why the machine stops with a fault. Both are safe: the spec gives the access no meaning, and the
model proves nothing about what follows (R55, log 3). -/
inductive Fault where
  /-- Raised by a host read of an unmapped register number (R52, R55). Safe. -/
  | unmappedRead (number : Nat)
  /-- Raised by a host write of an unmapped register number (R52, R55). Safe. -/
  | unmappedWrite (number : Nat)
  deriving DecidableEq, Repr

/-- Why a step is refused. All are safe: the host step is not admitted (R55, log 3). -/
inductive Refusal where
  /-- Raised by a dispatch arm whose instruction has no meaning yet; no arm raises it now. Safe. -/
  | notModelled (mnemonic : String)
  /-- Raised by a host read of CMD, which is write-only (R29, R55). Safe. -/
  | readOfWriteOnly (number : Nat)
  /-- Raised by a host write of DOUT or STATUS, which are read-only (R23, R30, R55). Safe. -/
  | writeOfReadOnly (number : Nat)
  /-- Raised by a host write whose value is not of the register's width (R54, R64). Safe. -/
  | wrongWidth (number : Nat)
  deriving DecidableEq, Repr

/-- The state of one engine instance (R20), and three fields of the model's own: the host's steps still
to be taken (log 1), the values its reads returned (log 2), and the count of resets that drew free
values (log 5). -/
structure State where
  /-- KIN[0..9], the key bytes in sequence order (R21). -/
  kin : Vector Byte 10
  /-- DIN[0..7], the input block in sequence order (R22). -/
  din : Vector Byte 8
  /-- DOUT[0..7], the output block in sequence order (R23). -/
  dout : Vector Byte 8
  /-- UR, the utility register (R24). -/
  ur : KeyReg
  /-- KEY, the master key (R25). -/
  key : KeyReg
  /-- KR, the key schedule's working register (R26). -/
  kr : KeyReg
  /-- RK[1..32], the round-key store; RK[n] stands at index n - 1 (R27). -/
  rk : Vector Block 32
  /-- S, the state register (R28). -/
  s : Block
  /-- PHASE (R31). -/
  phase : Phase
  /-- ERR (R32). -/
  err : Err
  /-- The model's own: host steps issued and not yet taken, oldest first (R70; log 1). -/
  pending : List HostStep
  /-- The model's own: values host reads returned, oldest first (R53; log 2). -/
  answers : List BusValue
  /-- The model's own: reset steps that have drawn free values (R42; log 5). -/
  draws : Nat
  deriving DecidableEq, Repr

/-- The machine right after reset: PHASE EMPTY, ERR none (R42). DESIGN CHOICE, unsafe: R42 leaves every
data register unspecified, and each is named 0 here (log 4). Nothing is pending (log 1). -/
def State.reset : State where
  kin := Vector.replicate 10 0#8
  din := Vector.replicate 8 0#8
  dout := Vector.replicate 8 0#8
  ur := 0#80
  key := 0#80
  kr := 0#80
  rk := Vector.replicate 32 0#64
  s := 0#64
  phase := .empty
  err := .noError
  pending := []
  answers := []
  draws := 0

end Sys2Proof.Machine
end

