-- ==== Sys2Proof/Machine/Flags.lean ====
section
/-! DEFINITION. STATUS and its fields (R30 to R32, R200). P80E has no condition codes. -/

namespace Sys2Proof.Machine

/-- The 2-bit code of a phase (R31). -/
def Phase.code : Phase → BitVec 2
  | .empty => 0
  | .initialized => 1
  | .ready => 2
  | .complete => 3

/-- The 3-bit code of an error (R200). Code 7 is no error's. -/
def Err.code : Err → BitVec 3
  | .noError => 0
  | .invalidKeySize => 1
  | .invalidBlockSize => 2
  | .invalidArgument => 3
  | .noKey => 4
  | .illegalCommand => 5
  | .invalidOperand => 6

/-- STATUS as read: bit 7 zero, ERR in 6:4, bits 3:2 zero, PHASE in 1:0 (R30). -/
def statusByte (m : State) : Byte := 0#1 ++ m.err.code ++ 0#2 ++ m.phase.code

/-- The phase once the engine has taken a word that is not NOP: COMPLETE becomes READY (R172, R173). -/
def leaveComplete : Phase → Phase
  | .empty => .empty
  | .initialized => .initialized
  | .ready => .ready
  | .complete => .ready

end Sys2Proof.Machine
end

