-- ==== Sys2Proof/Machine/Operands.lean ====
section
/-! DEFINITION. The operand forms: bytes to integer and back (R57, R58), and the buffers a command reads
as an integer (R122, R182). The other operands are numbers taken as they stand (R88). -/

namespace Sys2Proof.Machine

/-- The sum over j of B[j] * 2^(8*j) (R57, little). -/
def bytesValue : List Byte → Nat
  | [] => 0
  | b :: bs => b.toNat + 256 * bytesValue bs

/-- The integer a byte sequence stands for: `little` weighs B[j] by 2^(8*j), `big` by 2^(8*(n-1-j)),
which is the reversed sequence read `little` (R57, R60). -/
def orderedValue (e : ByteOrder) (bs : List Byte) : Nat :=
  match e with
  | .big => bytesValue bs.reverse
  | .little => bytesValue bs

/-- b2i(e, B, n) at width `w`, which is 8n wherever it is used (R57). -/
def b2i (w : Nat) (e : ByteOrder) {n : Nat} (bs : Vector Byte n) : BitVec w :=
  BitVec.ofNat w (orderedValue e bs.toList)

/-- i2b(e, v, n) (R58). -/
def i2b (e : ByteOrder) {w : Nat} (v : BitVec w) (n : Nat) : Vector Byte n :=
  match e with
  | .big => Vector.ofFn fun j => v.extractLsb' (8 * (n - 1 - j)) 8
  | .little => Vector.ofFn fun j => v.extractLsb' (8 * j) 8

/-- The key integer of KIN (R122). -/
def keyInteger (e : ByteOrder) (m : State) : KeyReg := b2i 80 e m.kin

/-- The block integer of DIN (R181, R182). -/
def blockInteger (e : ByteOrder) (m : State) : Block := b2i 64 e m.din

end Sys2Proof.Machine
end

