-- ==== Sys2Proof/Machine/Ops.lean ====
section
/-! DEFINITION. The named operations over the registers: writing one, taking a word (R173), raising an
error (R206), completing, and generating the schedule (R134, R137). P80E has no return from an error:
nothing was entered (R209). -/

namespace Sys2Proof.Machine

/-- What a step answers. -/
abbrev Answer := Host.Outcome State Fault Refusal

def State.setKin (m : State) (v : Vector Byte 10) : State := { m with kin := v }
def State.setDin (m : State) (v : Vector Byte 8) : State := { m with din := v }
def State.setDout (m : State) (v : Vector Byte 8) : State := { m with dout := v }
def State.setUr (m : State) (v : KeyReg) : State := { m with ur := v }
def State.setKey (m : State) (v : KeyReg) : State := { m with key := v }
/-- KR and RK are written together, by schedule generation only (R27, R36). -/
def State.setSchedule (m : State) (kr : KeyReg) (rk : Vector Block 32) : State :=
  { m with kr := kr, rk := rk }
def State.setS (m : State) (v : Block) : State := { m with s := v }
def State.setPhase (m : State) (p : Phase) : State := { m with phase := p }
def State.setErr (m : State) (e : Err) : State := { m with err := e }
def State.setPending (m : State) (l : List HostStep) : State := { m with pending := l }
/-- A host read returned `v` (R53; log 2). -/
def State.pushAnswer (m : State) (v : BusValue) : State := { m with answers := m.answers ++ [v] }

/-- The common step of every word but NOP: COMPLETE becomes READY before the word is checked or run
(R172, R173). -/
def takeWord (m : State) : State := m.setPhase (leaveComplete m.phase)

/-- raise <Error>: ERR takes the error's code, the command ends, and nothing else is written (R206).
This is error entry: no vector, no handler, no saved state. -/
def raise (e : Err) (m : State) : Answer := .next (m.setErr e)

/-- A command that completes ends with ERR <- 0 (R173). -/
def finish (m : State) : Answer := .next (m.setErr .noError)

/-- A command that needs a key raises NoKey in EMPTY, before any other check (R187, R204, R208). -/
def needKey (m : State) (body : State → Answer) : Answer :=
  if m.phase = .empty then raise .noKey m else body m

/-- RK[1..32] <- keyschedule(KEY), leaving the register after update 31 in KR (R134). -/
def generateSchedule (m : State) : State := m.setSchedule (finalKr m.key) (keyschedule m.key)

/-- EnsureSchedule() (R137), called only with PHASE not EMPTY. -/
def ensureSchedule (m : State) : State :=
  if m.phase = .initialized then (generateSchedule m).setPhase .ready else m

/-- The shared body of ADDRK and RDRK: key check, index check, EnsureSchedule, the action on RK[n],
PHASE <- READY, ERR <- 0 (R138, R159). -/
def useRoundKey (n : Nat) (m : State) (action : State → Block → State) : Answer :=
  needKey m fun m =>
    if h : 1 ≤ n ∧ n ≤ 32 then
      let m := ensureSchedule m
      finish ((action m (roundKeyAt m.rk n h)).setPhase .ready)
    else raise .invalidOperand m

end Sys2Proof.Machine
end

