-- ==== Sys2Proof/Machine/Engine.lean ====
section
/-! DEFINITION. NOP, ENC, LDBLK and STBLK (spec/44_engine.md). -/

namespace Sys2Proof.Machine

/-- NOP (R174): nothing changes, not ERR, not PHASE. -/
def execNop (m : State) : Answer := .next m

/-- ENC (R181): key check, length check, EnsureSchedule, then S takes DIN and its encryption, DOUT the
bytes of S in the same byte order, PHASE COMPLETE. -/
def execEnc (e : ByteOrder) (len : Nat) (m : State) : Answer :=
  needKey (takeWord m) fun m =>
    if len ≠ Config.blockBytes then raise .invalidBlockSize m
    else
      let m := ensureSchedule m
      let m := m.setS (blockInteger e m)
      let m := m.setS (encryptInt m.rk m.s)
      let m := m.setDout (i2b e m.s 8)
      finish (m.setPhase .complete)

/-- LDBLK (R182). -/
def execLdblk (e : ByteOrder) (len : Nat) (m : State) : Answer :=
  let m := takeWord m
  if len ≠ Config.blockBytes then raise .invalidBlockSize m
  else finish (m.setS (blockInteger e m))

/-- STBLK (R183). -/
def execStblk (e : ByteOrder) (m : State) : Answer :=
  let m := takeWord m
  finish (m.setDout (i2b e m.s 8))

end Sys2Proof.Machine
end

