-- ==== Sys2Proof/Machine/Key.lean ====
section
/-! DEFINITION. LDKEY (spec/41_key.md). -/

namespace Sys2Proof.Machine

/-- LDKEY (R121): the length check comes first; then KEY takes the integer of KIN and PHASE becomes
INITIALIZED, which invalidates the schedule. -/
def execLdkey (e : ByteOrder) (len : Nat) (m : State) : Answer :=
  let m := takeWord m
  if len ≠ Config.keyBytes then raise .invalidKeySize m
  else finish ((m.setKey (keyInteger e m)).setPhase .initialized)

end Sys2Proof.Machine
end

