-- ==== Sys2Proof/Machine/Rotate.lean ====
section
/-! DEFINITION. ROL and ROR (spec/40_rotate.md). -/

namespace Sys2Proof.Machine

/-- The shared body of ROL and ROR (R107 to R109): width check, value check, then UR takes the rotation
of UR[W-1:0], zero-extended. `rot` is given the width and that it is not 0. -/
def rotateUr (rot : (w : Nat) → 0 < w → BitVec w → Nat → BitVec w) (bits width : Nat) (m : State) :
    Answer :=
  let m := takeWord m
  if h : width = 0 ∨ Config.maxWidth < width then raise .invalidOperand m
  else if 2 ^ width ≤ m.ur.toNat then raise .invalidOperand m
  else finish (m.setUr ((rot width (by omega) (m.ur.setWidth width) bits).setWidth 80))

/-- ROL (R107). -/
def execRol (bits width : Nat) (m : State) : Answer := rotateUr rol bits width m

/-- ROR (R109). -/
def execRor (bits width : Nat) (m : State) : Answer := rotateUr ror bits width m

end Sys2Proof.Machine
end

