-- ==== Sys2Proof/Machine/Round.lean ====
section
/-! DEFINITION. SBOXL, PERML and ADDRK (spec/43_round_function.md). -/

namespace Sys2Proof.Machine

/-- SBOXL (R157). -/
def execSboxl (m : State) : Answer :=
  let m := takeWord m
  finish (m.setS (sboxlayer m.s))

/-- PERML (R158). -/
def execPerml (m : State) : Answer :=
  let m := takeWord m
  finish (m.setS (player m.s))

/-- ADDRK (R159). -/
def execAddrk (n : Nat) (m : State) : Answer :=
  useRoundKey n (takeWord m) fun m k => m.setS (addrk m.s k)

end Sys2Proof.Machine
end

