-- ==== Sys2Proof/Machine/Schedule.lean ====
section
/-! DEFINITION. KSCHED and RDRK (spec/42_key_schedule.md). -/

namespace Sys2Proof.Machine

/-- KSCHED (R136): generate the round keys now, in every phase that has a key. -/
def execKsched (m : State) : Answer :=
  needKey (takeWord m) fun m => finish ((generateSchedule m).setPhase .ready)

/-- RDRK (R138): DOUT takes the bytes of RK[n]. -/
def execRdrk (e : ByteOrder) (n : Nat) (m : State) : Answer :=
  useRoundKey n (takeWord m) fun m k => m.setDout (i2b e k 8)

end Sys2Proof.Machine
end

