-- ==== Sys2Proof/Machine/Dispatch.lean ====
section
/-! DEFINITION. One arm per command: the meaning it calls. exec of a decoded command is the whole of
Execute(c) for its word (spec/44_engine.md R173). -/

namespace Sys2Proof.Machine

/-- Execute a decoded command (R173). -/
def exec (i : Instr) (s : State) : Host.Outcome State Fault Refusal :=
  match i with
  | .nop => Sys2Proof.Machine.execNop s
  | .ldkey e len => Sys2Proof.Machine.execLdkey e len s
  | .ksched => Sys2Proof.Machine.execKsched s
  | .enc e len => Sys2Proof.Machine.execEnc e len s
  | .ldblk e len => Sys2Proof.Machine.execLdblk e len s
  | .stblk e => Sys2Proof.Machine.execStblk e s
  | .addrk n => Sys2Proof.Machine.execAddrk n s
  | .sboxl => Sys2Proof.Machine.execSboxl s
  | .perml => Sys2Proof.Machine.execPerml s
  | .rdrk e n => Sys2Proof.Machine.execRdrk e n s
  | .rol bits width => Sys2Proof.Machine.execRol bits width s
  | .ror bits width => Sys2Proof.Machine.execRor bits width s

end Sys2Proof.Machine
end

