-- ==== Sys2Proof/Machine/Port.lean ====
section
/-! DEFINITION. The host port: the register numbers (R52), host reads and writes (R53 to R55), a command
word (R173), reset (R230), and taking the host's next step (R70). -/

namespace Sys2Proof.Machine

/-- A register the host can name (R52). -/
inductive HostReg where
  | kin (j : Fin 10)
  | din (j : Fin 8)
  | dout (j : Fin 8)
  | cmd
  | status
  | ur
  deriving DecidableEq, Repr

/-- The register map (R52); `none` is an unmapped number. -/
def regAt (number : Nat) : Option HostReg :=
  if h : number ≤ 0x09 then some (.kin ⟨number, by omega⟩)
  else if h : 0x10 ≤ number ∧ number ≤ 0x17 then some (.din ⟨number - 0x10, by omega⟩)
  else if h : 0x18 ≤ number ∧ number ≤ 0x1F then some (.dout ⟨number - 0x18, by omega⟩)
  else if number = 0x20 then some .cmd
  else if number = 0x21 then some .status
  else if number = 0x22 then some .ur
  else none

/-- HostRead(r) (R53): the whole register, and nothing changes but the host's record of the answer
(log 2). An unmapped number faults, a read of CMD is refused (R55, log 3). -/
def hostRead (number : Nat) (m : State) : Answer :=
  match regAt number with
  | none => .fault (.unmappedRead number)
  | some (.kin j) => .next (m.pushAnswer (.byte m.kin[j]))
  | some (.din j) => .next (m.pushAnswer (.byte m.din[j]))
  | some (.dout j) => .next (m.pushAnswer (.byte m.dout[j]))
  | some .cmd => .refused (.readOfWriteOnly number)
  | some .status => .next (m.pushAnswer (.byte (statusByte m)))
  | some .ur => .next (m.pushAnswer (.wide m.ur))

/-- Execute(c) (R173): an illegal word raises IllegalCommand after the common step (R205). -/
def executeWord (c : Word) (m : State) : Answer :=
  match decode c with
  | .command i => exec i m
  | .illegal _ => raise .illegalCommand (takeWord m)

/-- HostWrite(r, v) (R54): the whole register takes v and nothing else changes; a word written to CMD
runs as a command. What R55 gives no meaning stops (log 3). -/
def hostWrite (number : Nat) (value : BusValue) (m : State) : Answer :=
  match regAt number, value with
  | none, _ => .fault (.unmappedWrite number)
  | some (.kin j), .byte v => .next (m.setKin (m.kin.set j v))
  | some (.din j), .byte v => .next (m.setDin (m.din.set j v))
  | some .ur, .wide v => .next (m.setUr v)
  | some .cmd, .word c => executeWord c m
  | some (.dout _), _ => .refused (.writeOfReadOnly number)
  | some .status, _ => .refused (.writeOfReadOnly number)
  | some (.kin _), .word _ => .refused (.wrongWidth number)
  | some (.kin _), .wide _ => .refused (.wrongWidth number)
  | some (.din _), .word _ => .refused (.wrongWidth number)
  | some (.din _), .wide _ => .refused (.wrongWidth number)
  | some .ur, .byte _ => .refused (.wrongWidth number)
  | some .ur, .word _ => .refused (.wrongWidth number)
  | some .cmd, .byte _ => .refused (.wrongWidth number)
  | some .cmd, .wide _ => .refused (.wrongWidth number)

/-- Reset (R230): PHASE EMPTY, ERR none, every data register a fresh free value (R42; log 5). The host's
own record, its further steps and its answers, is not the engine's and stays. -/
def hostReset (m : State) : State where
  kin := Vector.ofFn fun j => Config.resetKin m.draws j
  din := Vector.ofFn fun j => Config.resetDin m.draws j
  dout := Vector.ofFn fun j => Config.resetDout m.draws j
  ur := Config.resetUr m.draws
  key := Config.resetKey m.draws
  kr := Config.resetKr m.draws
  rk := Vector.ofFn fun j => Config.resetRk m.draws (j + 1)
  s := Config.resetS m.draws
  phase := .empty
  err := .noError
  pending := m.pending
  answers := m.answers
  draws := m.draws + 1

/-- One host step, taken whole (R70). -/
def takeHostStep (h : HostStep) (m : State) : Answer :=
  match h with
  | .read number => hostRead number m
  | .write number value => hostWrite number value m
  | .reset => .next (hostReset m)

/-- The host's oldest pending step is taken; with none, the engine is idle and keeps all its state
(R70, R226; log 1). -/
def serveHost (m : State) : Answer :=
  match m.pending with
  | [] => .next m
  | h :: rest => takeHostStep h (m.setPending rest)

/-- A write of the word `c` to CMD, number 0x20, becomes the host's next step (R52; log 1). -/
def placeCommand (c : Word) (m : State) : State :=
  m.setPending (.write 0x20 (.word c) :: m.pending)

end Sys2Proof.Machine
end

