-- ==== Sys2Proof/Machine/Step.lean ====
section
/-! DEFINITION. One step of the machine: one host access, one whole command, one reset (spec/00_scope.md
R6), or an idle step. -/

namespace Sys2Proof.Machine

/-- One step (R6, R70). -/
def step (s : State) : Host.Outcome State Fault Refusal := serveHost s

/-- `s` with the command word of an opcode-table row as the host's next step. The engine fetches nothing
(R40, R74): the next command is the word the host writes to CMD next (log 1). -/
def State.withFetchWord (s : State) (nbits w : Nat) : State := placeCommand (tableWord nbits w) s

end Sys2Proof.Machine
end

