-- ==== Sys2Proof/Machine/Work.lean ====
section
/-! DEFINITION. The amount of work of a command (spec/70_reset_and_hazards.md R244, R245): a table for
information, which no meaning uses. It says nothing about time (R243; log 7). -/

namespace Sys2Proof.Machine

/-- How many times a command applies each function (R245). -/
structure Work where
  ksupdates : Nat := 0
  addrks : Nat := 0
  sboxlayers : Nat := 0
  players : Nat := 0
  conversionsIn : Nat := 0
  conversionsOut : Nat := 0
  rotations : Nat := 0
  deriving DecidableEq, Repr

/-- The updates EnsureSchedule makes when it has to generate the schedule (R137, R245). -/
def ensureUpdates (generates : Bool) : Nat := if generates then 31 else 0

/-- R245's table. `refused` says whether the command raises an error, `generates` whether PHASE is
INITIALIZED, so that EnsureSchedule generates; nothing else decides the work (R244). -/
def work (i : Instr) (refused generates : Bool) : Work :=
  if refused then {}
  else match i with
    | .nop => {}
    | .ldkey _ _ => { conversionsIn := 1 }
    | .ksched => { ksupdates := 31 }
    | .enc _ _ =>
      { ksupdates := ensureUpdates generates, addrks := 32, sboxlayers := 31, players := 31,
        conversionsIn := 1, conversionsOut := 1 }
    | .ldblk _ _ => { conversionsIn := 1 }
    | .stblk _ => { conversionsOut := 1 }
    | .addrk _ => { ksupdates := ensureUpdates generates, addrks := 1 }
    | .sboxl => { sboxlayers := 1 }
    | .perml => { players := 1 }
    | .rdrk _ _ => { ksupdates := ensureUpdates generates, conversionsOut := 1 }
    | .rol _ _ => { rotations := 1 }
    | .ror _ _ => { rotations := 1 }

/-- Whether a command is refused in a state: it raises an error (R206). NOP never is; it leaves ERR as it was
(R174). -/
def isRefused (i : Instr) (m : State) : Bool :=
  match exec i m with
  | .next t => i ≠ .nop && t.err ≠ .noError
  | .fault _ => true
  | .refused _ => true

/-- The work of a command in a state (R244, R245; log 7). -/
def workAt (i : Instr) (m : State) : Work := work i (isRefused i m) (m.phase = .initialized)

end Sys2Proof.Machine
end

