-- ==== Sys2Proof/Safety.lean ====
section
/-! DEFINITION. The terms claims use: the invariant of the machine, what a host step must be to be
admitted, the phase table, running a list of commands, and agreement up to stale registers. -/

namespace Sys2Proof.Machine

/-- Schedule validity (spec/10_state.md R35, R26): in READY and COMPLETE, RK and KR are what schedule
generation from KEY leaves. -/
def ScheduleValid (m : State) : Prop :=
  m.phase = .ready ∨ m.phase = .complete → m.rk = keyschedule m.key ∧ m.kr = finalKr m.key

/-- The machine's invariant: schedule validity (R35); COMPLETE stands beside no error and with DOUT the
bytes of S in one of the two orders (R172, R31); NoKey stands only in EMPTY (R204); InvalidArgument is
never written (R203). -/
structure Inv (m : State) : Prop where
  schedule : ScheduleValid m
  completeNoError : m.phase = .complete → m.err = .noError
  completeOutput : m.phase = .complete → m.dout = i2b .big m.s 8 ∨ m.dout = i2b .little m.s 8
  noKeyEmpty : m.err = .noKey → m.phase = .empty
  neverInvalidArgument : m.err ≠ .invalidArgument

/-- A host step the register map gives a meaning (R52 to R55): a read of a readable number, a write of
a writable number with a value of its width, or reset. -/
def Admitted : HostStep → Prop
  | .read number => number ≤ 0x09 ∨ (0x10 ≤ number ∧ number ≤ 0x1F) ∨ number = 0x21 ∨ number = 0x22
  | .write number (.byte _) => number ≤ 0x09 ∨ (0x10 ≤ number ∧ number ≤ 0x17)
  | .write number (.word _) => number = 0x20
  | .write number (.wide _) => number = 0x22
  | .reset => True

/-- The phase transitions of a command (spec/44_engine.md R171): `ok` says whether it completed without
an error, `p` is the phase before. -/
def phaseAfter (i : Instr) (ok : Bool) (p : Phase) : Phase :=
  match i, ok with
  | .nop, _ => p
  | .ldkey _ _, true => .initialized
  | .ksched, true => .ready
  | .enc _ _, true => .complete
  | .addrk _, true => .ready
  | .rdrk _ _, true => .ready
  | _, _ => leaveComplete p

/-- The commands whose entry in R171's table is NoKey from EMPTY: they need a bound key (R187). -/
def needsKey : Instr → Bool
  | .nop => false
  | .ldkey _ _ => false
  | .ksched => true
  | .enc _ _ => true
  | .ldblk _ _ => false
  | .stblk _ => false
  | .addrk _ => true
  | .sboxl => false
  | .perml => false
  | .rdrk _ _ => true
  | .rol _ _ => false
  | .ror _ _ => false

/-- Commands run one after another. -/
def runCommands : List Instr → State → Answer
  | [], m => .next m
  | i :: is, m =>
    match exec i m with
    | .next t => runCommands is t
    | .fault r => .fault r
    | .refused r => .refused r

/-- ADDRK i; SBOXL; PERML for i = 1 .. n (R184). -/
def fullRounds : Nat → List Instr
  | 0 => []
  | n + 1 => fullRounds n ++ [.addrk (n + 1), .sboxl, .perml]

/-- The 96 commands of R184. -/
def encSequence (e : ByteOrder) : List Instr :=
  .ldblk e 8 :: (fullRounds 31 ++ [.addrk 32, .stblk e])

/-- The encryption of block bytes under key bytes, each read in its own byte order; the output bytes in
the block's order (R122, R181). -/
def encryptBytes (eKey eBlock : ByteOrder) (key : Vector Byte 10) (block : Vector Byte 8) :
    Vector Byte 8 :=
  i2b eBlock (encryptInt (keyschedule (b2i 80 eKey key)) (b2i 64 eBlock block)) 8

/-- Two states that differ at most in registers R35 and R42 call not valid or unobservable: KEY while no
key is bound, RK and KR while no schedule is generated. -/
def SameButStale (m m' : State) : Prop :=
  m' = { m with key := m'.key, kr := m'.kr, rk := m'.rk } ∧
  (m.phase ≠ .empty → m'.key = m.key) ∧
  (m.phase = .ready ∨ m.phase = .complete → m'.kr = m.kr ∧ m'.rk = m.rk)

/-- Two answers of the same kind: next states that are the same but for stale registers, or the same
stop. -/
def SameAnswerButStale : Answer → Answer → Prop
  | .next t, .next t' => SameButStale t t'
  | .fault r, .fault r' => r = r'
  | .refused r, .refused r' => r = r'
  | _, _ => False

/-- What the byte-order tag adds to a command word: E * 2^24 (R90). -/
def orderWeight : ByteOrder → Nat
  | .big => 0
  | .little => 2 ^ 24

/-- How many of the bits of a word are 1 (R106, R154). -/
def ones {w : Nat} (v : BitVec w) : Nat := ((Finset.range w).filter fun j => v.getLsbD j = true).card

end Sys2Proof.Machine
end

