-- ==== Sys2Proof/Certificates/Slice0/Obligations.lean ====
section
/-! DEFINITION. The statements for the provers, from the numbered rules of spec/. A next state written
`{ m with … }` says what the command writes and, by what it does not list, its frame. -/

open Sys2Proof Sys2Proof.Machine

/-! ## Encoding -/

/-- R81 to R84: the word of a well-formed command decodes to that command. -/
def Obligations.DecodeOfEncode : Prop :=
  ∀ i : Instr, i.WellFormed → decode (encode i) = .command i

/-- R82 to R84: a word that decodes to a command is that command's word, and the command is well-formed:
no bit of a legal word is dropped. -/
def Obligations.EncodeOfDecode : Prop :=
  ∀ (c : Word) (i : Instr), decode c = .command i → i.WellFormed ∧ encode i = c

/-- R83, R84: the opcode map, written out; each row by its mask and match, whichever row stands first;
a word of no row is illegal. -/
def Obligations.DecodeFollowsOpcodeMap : Prop :=
  ∀ c : Word,
    let e : ByteOrder := if c.getLsbD 24 then .little else .big
    let a : Nat := (c.extractLsb' 16 8).toNat
    let w : Nat := (c.extractLsb' 8 8).toNat
    let n : Nat := (c.extractLsb' 0 8).toNat
    (c &&& 0xFFFFFFFF#32 = 0x00000000#32 → decode c = .command .nop) ∧
    (c &&& 0xFEFFFF00#32 = 0x10000000#32 → decode c = .command (.ldkey e n)) ∧
    (c &&& 0xFFFFFFFF#32 = 0x20000000#32 → decode c = .command .ksched) ∧
    (c &&& 0xFEFFFF00#32 = 0x30000000#32 → decode c = .command (.enc e n)) ∧
    (c &&& 0xFEFFFF00#32 = 0x40000000#32 → decode c = .command (.ldblk e n)) ∧
    (c &&& 0xFEFFFFFF#32 = 0x50000000#32 → decode c = .command (.stblk e)) ∧
    (c &&& 0xFFFFFF00#32 = 0x60000000#32 → decode c = .command (.addrk n)) ∧
    (c &&& 0xFFFFFFFF#32 = 0x70000000#32 → decode c = .command .sboxl) ∧
    (c &&& 0xFFFFFFFF#32 = 0x80000000#32 → decode c = .command .perml) ∧
    (c &&& 0xFEFFFF00#32 = 0x90000000#32 → decode c = .command (.rdrk e n)) ∧
    (c &&& 0xFF0000FF#32 = 0xA0000000#32 → decode c = .command (.rol a w)) ∧
    (c &&& 0xFF0000FF#32 = 0xB0000000#32 → decode c = .command (.ror a w)) ∧
    (c &&& 0xFFFFFFFF#32 ≠ 0x00000000#32 → c &&& 0xFEFFFF00#32 ≠ 0x10000000#32 →
      c &&& 0xFFFFFFFF#32 ≠ 0x20000000#32 → c &&& 0xFEFFFF00#32 ≠ 0x30000000#32 →
      c &&& 0xFEFFFF00#32 ≠ 0x40000000#32 → c &&& 0xFEFFFFFF#32 ≠ 0x50000000#32 →
      c &&& 0xFFFFFF00#32 ≠ 0x60000000#32 → c &&& 0xFFFFFFFF#32 ≠ 0x70000000#32 →
      c &&& 0xFFFFFFFF#32 ≠ 0x80000000#32 → c &&& 0xFEFFFF00#32 ≠ 0x90000000#32 →
      c &&& 0xFF0000FF#32 ≠ 0xA0000000#32 → c &&& 0xFF0000FF#32 ≠ 0xB0000000#32 →
      ∃ why, decode c = .illegal why)

/-- R85, R86: a reserved opcode is illegal whatever the other bits, and so is a defined opcode with a
non-zero bit in Z or in a field its format does not list. -/
def Obligations.ReservedBitsAreIllegal : Prop :=
  ∀ c : Word,
    let op := c.extractLsb' 28 4
    (0xC#4 ≤ op ∨
      c.extractLsb' 25 3 ≠ 0#3 ∨
      (op ∈ [0x0#4, 0x2#4, 0x7#4, 0x8#4] ∧ c.extractLsb' 0 25 ≠ 0#25) ∨
      (op ∈ [0x1#4, 0x3#4, 0x4#4, 0x9#4] ∧ c.extractLsb' 8 16 ≠ 0#16) ∨
      (op = 0x5#4 ∧ c.extractLsb' 0 24 ≠ 0#24) ∨
      (op = 0x6#4 ∧ c.extractLsb' 8 17 ≠ 0#17) ∨
      (op ∈ [0xA#4, 0xB#4] ∧ (c.extractLsb' 24 1 ≠ 0#1 ∨ c.extractLsb' 0 8 ≠ 0#8))) →
    ∃ why, decode c = .illegal why

/-- R87: 133382 of the 2^32 words decode to a command. -/
def Obligations.LegalWordCount : Prop :=
  Nat.card { c : Word // ∃ i, decode c = .command i } = 133382

/-- R90's examples and the all-operand words of spec/95_test_vectors.md section 8, as a sanity check. -/
def Obligations.SampleWordsDecode : Prop :=
  decode 0x00000000#32 = .command .nop ∧
  decode 0x1000000A#32 = .command (.ldkey .big 10) ∧
  decode 0x20000000#32 = .command .ksched ∧
  decode 0x31000008#32 = .command (.enc .little 8) ∧
  decode 0x41000008#32 = .command (.ldblk .little 8) ∧
  decode 0x51000000#32 = .command (.stblk .little) ∧
  decode 0x60000020#32 = .command (.addrk 32) ∧
  decode 0x70000000#32 = .command .sboxl ∧
  decode 0x80000000#32 = .command .perml ∧
  decode 0x90000001#32 = .command (.rdrk .big 1) ∧
  decode 0xA03D5000#32 = .command (.rol 61 80) ∧
  decode 0xB0135000#32 = .command (.ror 19 80)

/-! ## The step and the host port -/

/-- R54, R173: when the host's next step writes a word to CMD, the host step is taken off the host's list
and the word runs: exec of the command it decodes to, or the illegal word's outcome. -/
def Obligations.StepRunsTheWrittenCommand : Prop :=
  ∀ (m : State) (rest : List HostStep) (c : Word), m.pending = .write 0x20 (.word c) :: rest →
    (∀ i, decode c = .command i → step m = exec i { m with pending := rest }) ∧
    (∀ why, decode c = .illegal why → step m = executeWord c { m with pending := rest })

/-- R205: a word that is illegal raises IllegalCommand in every phase: ERR takes its code, a COMPLETE engine
becomes READY, and nothing else changes. -/
def Obligations.IllegalWordRaisesIllegalCommand : Prop :=
  ∀ (m : State) (c : Word) (why : IllegalWord), decode c = .illegal why →
    executeWord c m = .next { m with
      err := .illegalCommand, phase := if m.phase = .complete then .ready else m.phase }

/-- R226: with no host step pending the engine is idle and keeps all its state (the list of pending
steps is the model's own, log 1). -/
def Obligations.IdleEngineKeepsItsState : Prop :=
  ∀ m : State, m.pending = [] → step m = .next m

/-- R53: a host read of a mapped, readable register answers its current value and changes nothing. -/
def Obligations.HostReadAnswersTheRegister : Prop :=
  ∀ (m : State) (rest : List HostStep) (number : Nat), m.pending = .read number :: rest →
    (∀ j : Fin 10, number = j →
      step m = .next { m with pending := rest, answers := m.answers ++ [.byte m.kin[j]] }) ∧
    (∀ j : Fin 8, number = 0x10 + j →
      step m = .next { m with pending := rest, answers := m.answers ++ [.byte m.din[j]] }) ∧
    (∀ j : Fin 8, number = 0x18 + j →
      step m = .next { m with pending := rest, answers := m.answers ++ [.byte m.dout[j]] }) ∧
    (number = 0x21 →
      step m = .next { m with pending := rest, answers := m.answers ++ [.byte (statusByte m)] }) ∧
    (number = 0x22 →
      step m = .next { m with pending := rest, answers := m.answers ++ [.wide m.ur] })

/-- R54: a host write of a mapped, writable register other than CMD replaces that register by the value
and changes nothing else. -/
def Obligations.HostWriteReplacesOneRegister : Prop :=
  ∀ (m : State) (rest : List HostStep),
    (∀ (j : Fin 10) (v : Byte), m.pending = .write j (.byte v) :: rest →
      ∃ t, step m = .next t ∧ t.kin[j] = v ∧ (∀ k : Fin 10, k ≠ j → t.kin[k] = m.kin[k]) ∧
        t = { m with pending := rest, kin := t.kin }) ∧
    (∀ (j : Fin 8) (v : Byte), m.pending = .write (0x10 + j) (.byte v) :: rest →
      ∃ t, step m = .next t ∧ t.din[j] = v ∧ (∀ k : Fin 8, k ≠ j → t.din[k] = m.din[k]) ∧
        t = { m with pending := rest, din := t.din }) ∧
    (∀ v : KeyReg, m.pending = .write 0x22 (.wide v) :: rest →
      step m = .next { m with pending := rest, ur := v })

/-- R55, with the model's stops (log 3): an access the register map gives no meaning has no next state.
Unmapped numbers fault; a write of DOUT or STATUS and a read of CMD are refused. -/
def Obligations.UndefinedAccessesStop : Prop :=
  ∀ (m : State) (rest : List HostStep) (number : Nat),
    (m.pending = .read number :: rest →
      ((0x0A ≤ number ∧ number ≤ 0x0F) ∨ 0x23 ≤ number → step m = .fault (.unmappedRead number)) ∧
      (number = 0x20 → step m = .refused (.readOfWriteOnly number))) ∧
    (∀ v, m.pending = .write number v :: rest →
      ((0x0A ≤ number ∧ number ≤ 0x0F) ∨ 0x23 ≤ number → step m = .fault (.unmappedWrite number)) ∧
      ((0x18 ≤ number ∧ number ≤ 0x1F) ∨ number = 0x21 →
        step m = .refused (.writeOfReadOnly number)))

/-- R52 to R55, R64, R185: a host step completes exactly when the register map gives it a meaning; no
command stops. The width condition is the model's (log 3). -/
def Obligations.ExactlyAdmittedStepsComplete : Prop :=
  ∀ (m : State) (h : HostStep) (rest : List HostStep), m.pending = h :: rest →
    ((∃ t, step m = .next t) ↔ Admitted h)

/-- R52: 29 numbers are mapped, all of them below 0x23. -/
def Obligations.RegisterMapHas29Numbers : Prop :=
  ((List.range 0x23).filter fun r => (regAt r).isSome).length = 29 ∧
  ∀ number : Nat, 0x23 ≤ number → regAt number = none

/-- R54, R65, R221: no host access but a command word or reset changes KEY, KR, RK, S, DOUT, PHASE or
ERR. -/
def Obligations.HostAccessLeavesTheEngineAlone : Prop :=
  ∀ (m t : State) (h : HostStep) (rest : List HostStep), m.pending = h :: rest →
    (∀ v, h ≠ .write 0x20 v) → h ≠ .reset → step m = .next t →
      t.key = m.key ∧ t.kr = m.kr ∧ t.rk = m.rk ∧ t.s = m.s ∧ t.dout = m.dout ∧
        t.phase = m.phase ∧ t.err = m.err ∧ t.pending = rest

/-! ## Reset and STATUS -/

/-- R42: the state right after reset is EMPTY with no error, and STATUS reads 0x00. -/
def Obligations.ResetStateIsEmptyWithoutError : Prop :=
  State.reset.phase = .empty ∧ State.reset.err = .noError ∧ statusByte State.reset = 0x00#8

/-- R230, R42: whatever the state, a reset step leaves EMPTY with no error and every data register a
fresh free value (log 5); and from a phase other than EMPTY, only a reset step leads to EMPTY. -/
def Obligations.OnlyResetLeadsToEmpty : Prop :=
  (∀ (m : State) (rest : List HostStep), m.pending = .reset :: rest →
    ∃ t, step m = .next t ∧ t.phase = .empty ∧ t.err = .noError ∧ statusByte t = 0x00#8 ∧
      (∀ j : Fin 10, t.kin[j] = Config.resetKin m.draws j) ∧
      (∀ j : Fin 8, t.din[j] = Config.resetDin m.draws j) ∧
      (∀ j : Fin 8, t.dout[j] = Config.resetDout m.draws j) ∧
      (∀ n (h : 1 ≤ n ∧ n ≤ 32), roundKeyAt t.rk n h = Config.resetRk m.draws n) ∧
      t.ur = Config.resetUr m.draws ∧ t.key = Config.resetKey m.draws ∧
      t.kr = Config.resetKr m.draws ∧ t.s = Config.resetS m.draws ∧
      t.draws = m.draws + 1 ∧ t.pending = rest ∧ t.answers = m.answers) ∧
  (∀ m t : State, step m = .next t → m.phase ≠ .empty → t.phase = .empty →
    ∃ rest, m.pending = .reset :: rest)

/-- R30 to R32, R200: STATUS shows ERR in bits 6:4 and PHASE in bits 1:0, by their codes; bits 7, 3 and
2 read 0. -/
def Obligations.StatusLayout : Prop :=
  ∀ m : State,
    (statusByte m).extractLsb' 7 1 = 0#1 ∧ (statusByte m).extractLsb' 2 2 = 0#2 ∧
    (statusByte m).extractLsb' 4 3 =
      (match m.err with
        | .noError => 0#3 | .invalidKeySize => 1#3 | .invalidBlockSize => 2#3
        | .invalidArgument => 3#3 | .noKey => 4#3 | .illegalCommand => 5#3 | .invalidOperand => 6#3) ∧
    (statusByte m).extractLsb' 0 2 =
      (match m.phase with
        | .empty => 0#2 | .initialized => 1#2 | .ready => 2#2 | .complete => 3#2)

/-! ## The functions of the cipher -/

/-- R104: bit (j + b mod w) mod w of rol(w, v, b) is bit j of v; a multiple of w returns v. -/
def Obligations.RotateLeftMovesBits : Prop :=
  ∀ (w : Nat) (hw : 0 < w) (v : BitVec w) (b : Nat),
    (∀ j, j < w → (rol w hw v b).getLsbD ((j + b % w) % w) = v.getLsbD j) ∧
    (b % w = 0 → rol w hw v b = v)

/-- R105: bit j of ror(w, v, b) is bit (j + b mod w) mod w of v; a multiple of w returns v. -/
def Obligations.RotateRightMovesBits : Prop :=
  ∀ (w : Nat) (hw : 0 < w) (v : BitVec w) (b : Nat),
    (∀ j, j < w → (ror w hw v b).getLsbD j = v.getLsbD ((j + b % w) % w)) ∧
    (b % w = 0 → ror w hw v b = v)

/-- R106: the laws of the rotations, for every width, value and amount. -/
def Obligations.RotationLaws : Prop :=
  ∀ (w : Nat) (hw : 0 < w) (v : BitVec w) (b c : Nat),
    ror w hw v b = rol w hw v (w - b % w) ∧
    ror w hw (rol w hw v b) b = v ∧ rol w hw (ror w hw v b) b = v ∧
    rol w hw (rol w hw v b) c = rol w hw v (b + c) ∧
    Function.Bijective (fun x => rol w hw x b) ∧ Function.Bijective (fun x => ror w hw x b) ∧
    ones (rol w hw v b) = ones v ∧ ones (ror w hw v b) = ones v

/-- R150, R151: the substitution box, entry by entry, is a bijection. -/
def Obligations.SboxTableIsAPermutation : Prop :=
  (sbox 0x0 = 0xC ∧ sbox 0x1 = 0x5 ∧ sbox 0x2 = 0x6 ∧ sbox 0x3 = 0xB ∧ sbox 0x4 = 0x9 ∧ sbox 0x5 = 0x0 ∧
    sbox 0x6 = 0xA ∧ sbox 0x7 = 0xD ∧ sbox 0x8 = 0x3 ∧ sbox 0x9 = 0xE ∧ sbox 0xA = 0xF ∧ sbox 0xB = 0x8 ∧
    sbox 0xC = 0x4 ∧ sbox 0xD = 0x7 ∧ sbox 0xE = 0x1 ∧ sbox 0xF = 0x2) ∧
  Function.Bijective sbox

/-- R152: each nibble of sboxlayer(s) is the box of the nibble of s at the same position. -/
def Obligations.SboxlayerActsOnNibbles : Prop :=
  ∀ (s : Block) (j : Nat), j < 16 →
    (sboxlayer s).extractLsb' (4 * j) 4 = sbox (s.extractLsb' (4 * j) 4)

/-- R153: the permutation box by its formula; R155: a permutation of 0..63. -/
def Obligations.PboxIsAPermutation : Prop :=
  (∀ k r, k < 16 → r < 4 → pbox (4 * k + r) = 16 * r + k) ∧
  (∀ p, p < 64 → pbox p < 64) ∧
  (∀ q, q < 64 → ∃ p, p < 64 ∧ pbox p = q ∧ ∀ p', p' < 64 → pbox p' = q → p' = p)

/-- What R151, R153 and R155 infer about the boxes: the substitution box has no fixed point; pbox(p) is
16p mod 63 below 63; its fixed points are 0, 21, 42 and 63. -/
def Obligations.BoxesHaveTheInferredFixedPoints : Prop :=
  (∀ x, sbox x ≠ x) ∧ (∀ p, p < 63 → pbox p = 16 * p % 63) ∧ pbox 63 = 63 ∧
  (∀ p, p < 64 → (pbox p = p ↔ p = 0 ∨ p = 21 ∨ p = 42 ∨ p = 63))

/-- R154: the output bit at position pbox(p) is the input bit at position p. -/
def Obligations.PlayerMovesBits : Prop :=
  ∀ (s : Block) (k r : Nat), k < 16 → r < 4 →
    (player s).getLsbD (16 * r + k) = s.getLsbD (4 * k + r)

/-- What R152 and R154 infer: both layers are bijections; the permutation layer keeps the number of 1 bits
and commutes with XOR. -/
def Obligations.LayersAreBijective : Prop :=
  Function.Bijective sboxlayer ∧ Function.Bijective player ∧
  (∀ s : Block, ones (player s) = ones s) ∧
  (∀ a b : Block, player (a ^^^ b) = player a ^^^ player b)

/-- R157, R158: 84 SBOXL commands return every S, fewer do not; three PERML commands return every S. -/
def Obligations.LayerCommandsComeRound : Prop :=
  (∀ m : State, ∃ t, runCommands (List.replicate 84 .sboxl) m = .next t ∧ t.s = m.s) ∧
  (∀ n, 0 < n → n < 84 →
    ∃ m t : State, runCommands (List.replicate n .sboxl) m = .next t ∧ t.s ≠ m.s) ∧
  (∀ m : State, ∃ t, runCommands (List.replicate 3 .perml) m = .next t ∧ t.s = m.s)

/-- R132, R133: one update of the key register, bit by bit: every bit comes from 19 places further up,
the top nibble goes through the box, and the counter is XORed into bits 19..15; a round key is the top
64 bits. -/
def Obligations.KsupdateBits : Prop :=
  (∀ (kr : KeyReg) (i : Nat) (h : 1 ≤ i ∧ i ≤ 31),
    (ksupdate kr i h).extractLsb' 76 4 = sbox (kr.extractLsb' 15 4) ∧
    (∀ j, j < 76 → (ksupdate kr i h).getLsbD j =
      (kr.getLsbD ((j + 19) % 80) ^^ (decide (15 ≤ j ∧ j ≤ 19) && i.testBit (j - 15))))) ∧
  (∀ (kr : KeyReg) (j : Nat), j < 64 → (roundkey kr).getLsbD j = kr.getLsbD (j + 16))

/-- What R135 and R180 infer: one update of the key register is a bijection for each counter value, and
the encryption function is one for every list of round keys. -/
def Obligations.UpdateAndEncryptionAreBijective : Prop :=
  (∀ (i : Nat) (h : 1 ≤ i ∧ i ≤ 31), Function.Bijective (fun kr => ksupdate kr i h)) ∧
  ∀ rk : Vector Block 32, Function.Bijective (encryptInt rk)

/-- R134: the schedule is the 32 round keys of one chain of registers, from the key by 31 updates;
generation writes all 32 to RK and leaves in KR the register after update 31. -/
def Obligations.KeyscheduleFollowsTheChain : Prop :=
  ∀ key : KeyReg, ∃ reg : Nat → KeyReg,
    reg 0 = key ∧ roundKeyAt (keyschedule key) 1 (by decide) = roundkey key ∧
    (∀ (i : Nat) (h : 1 ≤ i ∧ i ≤ 31),
      reg i = ksupdate (reg (i - 1)) i h ∧
      roundKeyAt (keyschedule key) (i + 1) (by omega) = roundkey (reg i)) ∧
    (∀ m : State, m.key = key → generateSchedule m = { m with rk := keyschedule key, kr := reg 31 })

/-- R180: 31 iterations of mix, substitute, permute, and a 32nd of mixing only. -/
def Obligations.EncryptIntFollowsTheRounds : Prop :=
  ∀ (rk : Vector Block 32) (s : Block), ∃ st : Nat → Block,
    st 0 = s ∧
    (∀ (i : Nat) (h : 1 ≤ i ∧ i ≤ 31),
      st i = player (sboxlayer (st (i - 1) ^^^ roundKeyAt rk i (by omega)))) ∧
    encryptInt rk s = st 31 ^^^ roundKeyAt rk 32 (by decide)

/-- R57: the integer of a byte sequence is the weighted sum of its bytes. -/
def Obligations.BytesToIntegerIsTheSum : Prop :=
  ∀ (n : Nat) (B : Vector Byte n),
    (b2i (8 * n) .big B).toNat = ∑ j : Fin n, B[j].toNat * 2 ^ (8 * (n - 1 - j)) ∧
    (b2i (8 * n) .little B).toNat = ∑ j : Fin n, B[j].toNat * 2 ^ (8 * (j : Nat))

/-- R58: the bytes of an integer, and that the two conversions undo each other. -/
def Obligations.IntegerToBytesInverts : Prop :=
  ∀ (n : Nat) (v : BitVec (8 * n)) (B : Vector Byte n) (e : ByteOrder),
    (∀ j : Fin n, (i2b .big v n)[j] = v.extractLsb' (8 * (n - 1 - j)) 8) ∧
    (∀ j : Fin n, (i2b .little v n)[j] = v.extractLsb' (8 * j) 8) ∧
    i2b e (b2i (8 * n) e B) n = B ∧ b2i (8 * n) e (i2b e v n) = v

/-- R60: little is big of the reversed sequence, and so is a whole encryption. -/
def Obligations.LittleIsBigReversed : Prop :=
  (∀ (n : Nat) (B : Vector Byte n), b2i (8 * n) .little B = b2i (8 * n) .big B.reverse) ∧
  (∀ (n : Nat) (v : BitVec (8 * n)), i2b .little v n = (i2b .big v n).reverse) ∧
  (∀ (key : Vector Byte 10) (block : Vector Byte 8),
    encryptBytes .little .little key block = (encryptBytes .big .big key.reverse block.reverse).reverse)

/-! ## The commands: completion, result and frame -/

/-- R174: NOP changes nothing at all, in every phase; only the word 0 is NOP, and the word 1 is illegal. -/
def Obligations.NopChangesNothing : Prop :=
  (∀ m : State, exec .nop m = .next m) ∧
  (∀ c : Word, decode c = .command .nop ↔ c = 0x00000000#32) ∧
  ∃ why, decode 0x00000001#32 = .illegal why

/-- R121, R122: LDKEY's word; with length 10 it succeeds in every phase, binds KIN byte by byte under the
order and writes KEY, PHASE and ERR only; any other length raises InvalidKeySize. -/
def Obligations.LdkeyBindsTheKey : Prop :=
  ∀ (e : ByteOrder) (len : Nat) (m : State),
    (len < 256 → (encode (.ldkey e len)).toNat = 0x10000000 + orderWeight e + len) ∧
    (len = 10 → ∃ t, exec (.ldkey e len) m = .next t ∧
      (e = .big → ∀ j : Fin 10, t.key.extractLsb' (8 * (9 - j)) 8 = m.kin[j]) ∧
      (e = .little → ∀ j : Fin 10, t.key.extractLsb' (8 * j) 8 = m.kin[j]) ∧
      t = { m with key := t.key, phase := .initialized, err := .noError }) ∧
    (len ≠ 10 → exec (.ldkey e len) m = .next { m with
      err := .invalidKeySize, phase := if m.phase = .complete then .ready else m.phase })

/-- R136: KSCHED's word; it generates the schedule in every phase that has a key, writing KR, RK, PHASE and
ERR only, and raises NoKey in EMPTY. -/
def Obligations.KschedGeneratesTheSchedule : Prop :=
  encode .ksched = 0x20000000#32 ∧
  ∀ m : State,
    (m.phase ≠ .empty → exec .ksched m = .next { m with
      kr := finalKr m.key, rk := keyschedule m.key, phase := .ready, err := .noError }) ∧
    (m.phase = .empty → exec .ksched m = .next { m with err := .noKey })

/-- R181: ENC's word; with a key bound and a valid schedule, ENC with length 8 completes: S takes the
encryption of DIN under KEY, DOUT its bytes in the same order; KR and RK end as the schedule of KEY; nothing
else but PHASE and ERR is written. It raises NoKey in EMPTY, and InvalidBlockSize for any other length. -/
def Obligations.EncEncryptsTheBlock : Prop :=
  ∀ (e : ByteOrder) (len : Nat) (m : State),
    (len < 256 → (encode (.enc e len)).toNat = 0x30000000 + orderWeight e + len) ∧
    (m.phase ≠ .empty → ScheduleValid m → len = 8 → exec (.enc e len) m = .next { m with
      s := encryptInt (keyschedule m.key) (b2i 64 e m.din)
      dout := i2b e (encryptInt (keyschedule m.key) (b2i 64 e m.din)) 8
      kr := finalKr m.key
      rk := keyschedule m.key
      phase := .complete
      err := .noError }) ∧
    (m.phase = .empty → exec (.enc e len) m = .next { m with err := .noKey }) ∧
    (m.phase ≠ .empty → len ≠ 8 → exec (.enc e len) m = .next { m with
      err := .invalidBlockSize, phase := if m.phase = .complete then .ready else m.phase })

/-- R182: LDBLK's word; with length 8 it completes in every phase and loads S from DIN byte by byte under
the order; any other length raises InvalidBlockSize. -/
def Obligations.LdblkLoadsTheBlock : Prop :=
  ∀ (e : ByteOrder) (len : Nat) (m : State),
    (len < 256 → (encode (.ldblk e len)).toNat = 0x40000000 + orderWeight e + len) ∧
    (len = 8 → ∃ t, exec (.ldblk e len) m = .next t ∧
      (e = .big → ∀ j : Fin 8, t.s.extractLsb' (8 * (7 - j)) 8 = m.din[j]) ∧
      (e = .little → ∀ j : Fin 8, t.s.extractLsb' (8 * j) 8 = m.din[j]) ∧
      t = { m with
        s := t.s, phase := if m.phase = .complete then .ready else m.phase, err := .noError }) ∧
    (len ≠ 8 → exec (.ldblk e len) m = .next { m with
      err := .invalidBlockSize, phase := if m.phase = .complete then .ready else m.phase })

/-- R183: STBLK's word; it completes in every phase and stores S to DOUT byte by byte under the order. -/
def Obligations.StblkStoresTheState : Prop :=
  ∀ (e : ByteOrder) (m : State),
    (encode (.stblk e)).toNat = 0x50000000 + orderWeight e ∧
    ∃ t, exec (.stblk e) m = .next t ∧
      (e = .big → ∀ j : Fin 8, t.dout[j] = m.s.extractLsb' (8 * (7 - j)) 8) ∧
      (e = .little → ∀ j : Fin 8, t.dout[j] = m.s.extractLsb' (8 * j) 8) ∧
      t = { m with
        dout := t.dout, phase := if m.phase = .complete then .ready else m.phase, err := .noError }

/-- R157: SBOXL's word; it completes in every phase and puts each nibble of S through the box. -/
def Obligations.SboxlSubstitutesNibbles : Prop :=
  encode .sboxl = 0x70000000#32 ∧
  ∀ m : State, ∃ t, exec .sboxl m = .next t ∧
    (∀ j, j < 16 → t.s.extractLsb' (4 * j) 4 = sbox (m.s.extractLsb' (4 * j) 4)) ∧
    t = { m with s := t.s, phase := if m.phase = .complete then .ready else m.phase, err := .noError }

/-- R158: PERML's word; it completes in every phase and moves bit 4k + r of S to position 16r + k. -/
def Obligations.PermlMovesBits : Prop :=
  encode .perml = 0x80000000#32 ∧
  ∀ m : State, ∃ t, exec .perml m = .next t ∧
    (∀ k r, k < 16 → r < 4 → t.s.getLsbD (16 * r + k) = m.s.getLsbD (4 * k + r)) ∧
    t = { m with s := t.s, phase := if m.phase = .complete then .ready else m.phase, err := .noError }

/-- R159: ADDRK's word; with a key bound and a valid schedule, ADDRK n for n in 1..32 completes and XORs
round key n of KEY into S. It raises NoKey in EMPTY, and InvalidOperand for any other n. -/
def Obligations.AddrkXorsTheRoundKey : Prop :=
  ∀ (n : Nat) (m : State),
    (n < 256 → (encode (.addrk n)).toNat = 0x60000000 + n) ∧
    (∀ hn : 1 ≤ n ∧ n ≤ 32, m.phase ≠ .empty → ScheduleValid m → exec (.addrk n) m = .next { m with
      s := m.s ^^^ roundKeyAt (keyschedule m.key) n hn
      kr := finalKr m.key
      rk := keyschedule m.key
      phase := .ready
      err := .noError }) ∧
    (m.phase = .empty → exec (.addrk n) m = .next { m with err := .noKey }) ∧
    (m.phase ≠ .empty → n = 0 ∨ 32 < n → exec (.addrk n) m = .next { m with
      err := .invalidOperand, phase := if m.phase = .complete then .ready else m.phase })

/-- R138: RDRK's word; with a key bound and a valid schedule, RDRK n for n in 1..32 completes and copies
round key n of KEY to DOUT byte by byte under the order. It raises NoKey in EMPTY, and InvalidOperand for
any other n. -/
def Obligations.RdrkCopiesTheRoundKey : Prop :=
  ∀ (e : ByteOrder) (n : Nat) (m : State),
    (n < 256 → (encode (.rdrk e n)).toNat = 0x90000000 + orderWeight e + n) ∧
    (∀ hn : 1 ≤ n ∧ n ≤ 32, m.phase ≠ .empty → ScheduleValid m →
      ∃ t, exec (.rdrk e n) m = .next t ∧
        (e = .big → ∀ j : Fin 8,
          t.dout[j] = (roundKeyAt (keyschedule m.key) n hn).extractLsb' (8 * (7 - j)) 8) ∧
        (e = .little → ∀ j : Fin 8,
          t.dout[j] = (roundKeyAt (keyschedule m.key) n hn).extractLsb' (8 * j) 8) ∧
        t = { m with
          dout := t.dout
          kr := finalKr m.key
          rk := keyschedule m.key
          phase := .ready
          err := .noError }) ∧
    (m.phase = .empty → exec (.rdrk e n) m = .next { m with err := .noKey }) ∧
    (m.phase ≠ .empty → n = 0 ∨ 32 < n → exec (.rdrk e n) m = .next { m with
      err := .invalidOperand, phase := if m.phase = .complete then .ready else m.phase })

/-- R107, R108: ROL's word; with 1 <= W <= 80 and UR < 2^W it completes in every phase: bit j of UR goes
to bit (j + A mod W) mod W, and the bits from W up are 0. Any other operands raise InvalidOperand. R107's pseudocode is stated, not
its example, which prints other digits than it (log 10). -/
def Obligations.RolRotatesUr : Prop :=
  ∀ (bits width : Nat) (m : State),
    (bits < 256 → width < 256 →
      (encode (.rol bits width)).toNat = 0xA0000000 + bits * 2 ^ 16 + width * 2 ^ 8) ∧
    (1 ≤ width → width ≤ 80 → m.ur.toNat < 2 ^ width →
      ∃ t, exec (.rol bits width) m = .next t ∧
        (∀ j, j < width → t.ur.getLsbD ((j + bits % width) % width) = m.ur.getLsbD j) ∧
        (∀ j, width ≤ j → t.ur.getLsbD j = false) ∧
        t = { m with
          ur := t.ur, phase := if m.phase = .complete then .ready else m.phase, err := .noError }) ∧
    (width = 0 ∨ 80 < width ∨ 2 ^ width ≤ m.ur.toNat → exec (.rol bits width) m = .next { m with
      err := .invalidOperand, phase := if m.phase = .complete then .ready else m.phase })

/-- R109, R108: ROR's word; with 1 <= W <= 80 and UR < 2^W it completes in every phase: bit j of the
result is bit (j + A mod W) mod W of UR, and the bits from W up are 0. Any other operands raise InvalidOperand. R109's pseudocode is stated, not
its example, which prints other digits than it (log 10). -/
def Obligations.RorRotatesUr : Prop :=
  ∀ (bits width : Nat) (m : State),
    (bits < 256 → width < 256 →
      (encode (.ror bits width)).toNat = 0xB0000000 + bits * 2 ^ 16 + width * 2 ^ 8) ∧
    (1 ≤ width → width ≤ 80 → m.ur.toNat < 2 ^ width →
      ∃ t, exec (.ror bits width) m = .next t ∧
        (∀ j, j < width → t.ur.getLsbD j = m.ur.getLsbD ((j + bits % width) % width)) ∧
        (∀ j, width ≤ j → t.ur.getLsbD j = false) ∧
        t = { m with
          ur := t.ur, phase := if m.phase = .complete then .ready else m.phase, err := .noError }) ∧
    (width = 0 ∨ 80 < width ∨ 2 ^ width ≤ m.ur.toNat → exec (.ror bits width) m = .next { m with
      err := .invalidOperand, phase := if m.phase = .complete then .ready else m.phase })

/-! ## Rules over all commands -/

/-- R201, R202, R204, R206, R207: which error each command other than NOP raises, exactly when, and that a
refused command changes only ERR and COMPLETE to READY. -/
def Obligations.ErrorsRaisedExactlyWhen : Prop :=
  ∀ (i : Instr) (m : State), i ≠ .nop → ∃ t, exec i m = .next t ∧
    (t.err = .invalidKeySize ↔ ∃ e len, i = .ldkey e len ∧ len ≠ 10) ∧
    (t.err = .invalidBlockSize ↔
      ∃ e len, len ≠ 8 ∧ (i = .ldblk e len ∨ (i = .enc e len ∧ m.phase ≠ .empty))) ∧
    (t.err = .noKey ↔ m.phase = .empty ∧
      (i = .ksched ∨ (∃ e len, i = .enc e len) ∨ (∃ n, i = .addrk n) ∨ (∃ e n, i = .rdrk e n))) ∧
    (t.err = .invalidOperand ↔
      (∃ bits width, (i = .rol bits width ∨ i = .ror bits width) ∧
        (width = 0 ∨ 80 < width ∨ 2 ^ width ≤ m.ur.toNat)) ∨
      (m.phase ≠ .empty ∧ ∃ n, (n = 0 ∨ 32 < n) ∧ (i = .addrk n ∨ ∃ e, i = .rdrk e n))) ∧
    t.err ≠ .illegalCommand ∧ t.err ≠ .invalidArgument ∧
    (t.err ≠ .noError →
      t = { m with err := t.err, phase := if m.phase = .complete then .ready else m.phase })

/-- R171: every command ends in a next state whose phase is the transition table's, with NoKey raised where
the table says so; an illegal word only leaves COMPLETE; reset gives EMPTY. -/
def Obligations.PhaseFollowsTheTable : Prop :=
  (∀ (i : Instr) (m : State), ∃ t, exec i m = .next t ∧
    t.phase = phaseAfter i (t.err = .noError) m.phase ∧
    (m.phase = .empty → needsKey i = true → t.err = .noKey)) ∧
  (∀ (c : Word) (why : IllegalWord) (m : State), decode c = .illegal why →
    ∃ t, executeWord c m = .next t ∧ t.phase = leaveComplete m.phase) ∧
  ∀ m : State, ∃ t, takeHostStep .reset m = .next t ∧ t.phase = .empty

/-- R172: after a command word other than NOP the phase is COMPLETE exactly when the word is an ENC that
succeeds; and in COMPLETE such a word does exactly what it does in READY. -/
def Obligations.CompleteExactlyAfterEnc : Prop :=
  (∀ (c : Word) (m t : State), decode c ≠ .command .nop → executeWord c m = .next t →
    (t.phase = .complete ↔ (∃ e len, decode c = .command (.enc e len)) ∧ t.err = .noError)) ∧
  ∀ (c : Word) (m : State), decode c ≠ .command .nop → m.phase = .complete →
    executeWord c m = executeWord c { m with phase := .ready }

/-- R36, R25, R27, R63: which commands can change which registers. -/
def Obligations.RegisterUsePerCommand : Prop :=
  ∀ (i : Instr) (m t : State), exec i m = .next t →
    t.kin = m.kin ∧ t.din = m.din ∧
    t.pending = m.pending ∧ t.answers = m.answers ∧ t.draws = m.draws ∧
    (t.dout ≠ m.dout → (∃ e, i = .enc e 8) ∨ (∃ e, i = .stblk e) ∨ (∃ e n, i = .rdrk e n)) ∧
    (t.ur ≠ m.ur → ∃ bits width, i = .rol bits width ∨ i = .ror bits width) ∧
    (t.key ≠ m.key → ∃ e, i = .ldkey e 10) ∧
    (t.kr ≠ m.kr ∨ t.rk ≠ m.rk → i = .ksched ∨ (m.phase = .initialized ∧
      ((∃ e, i = .enc e 8) ∨ (∃ n, i = .addrk n) ∨ (∃ e n, i = .rdrk e n)))) ∧
    (t.s ≠ m.s → (∃ e, i = .enc e 8) ∨ (∃ e, i = .ldblk e 8) ∨ (∃ n, i = .addrk n) ∨
      i = .sboxl ∨ i = .perml)

/-- R25, R42: a step changes KEY only by an LDKEY of length 10 or by reset. -/
def Obligations.KeyChangesOnlyByLdkeyOrReset : Prop :=
  ∀ m t : State, step m = .next t → t.key ≠ m.key →
    (∃ rest, m.pending = .reset :: rest) ∨
    (∃ c e rest, m.pending = .write 0x20 (.word c) :: rest ∧ decode c = .command (.ldkey e 10))

/-- R245, row by row: the work of every command that is not refused, by the phase before; and R244: it
depends only on the opcode, on whether the command is refused and on whether the schedule has to be
generated. The table is for information and no meaning uses it; what it says of NOP, of a refused command,
and of ADDRK and RDRK outside READY is the model's (log 7). -/
def Obligations.WorkFollowsTheTable : Prop :=
  (∀ m : State,
    workAt .nop m = {} ∧
    (∀ e, workAt (.ldkey e 10) m = { conversionsIn := 1 }) ∧
    (m.phase ≠ .empty → workAt .ksched m = { ksupdates := 31 }) ∧
    (m.phase = .ready ∨ m.phase = .complete → ∀ e, workAt (.enc e 8) m =
      { addrks := 32, sboxlayers := 31, players := 31, conversionsIn := 1, conversionsOut := 1 }) ∧
    (m.phase = .initialized → ∀ e, workAt (.enc e 8) m =
      { ksupdates := 31, addrks := 32, sboxlayers := 31, players := 31, conversionsIn := 1,
        conversionsOut := 1 }) ∧
    (∀ e, workAt (.ldblk e 8) m = { conversionsIn := 1 }) ∧
    (∀ e, workAt (.stblk e) m = { conversionsOut := 1 }) ∧
    (∀ n, 1 ≤ n ∧ n ≤ 32 →
      (m.phase = .ready ∨ m.phase = .complete → workAt (.addrk n) m = { addrks := 1 }) ∧
      (m.phase = .initialized → workAt (.addrk n) m = { ksupdates := 31, addrks := 1 })) ∧
    workAt .sboxl m = { sboxlayers := 1 } ∧
    workAt .perml m = { players := 1 } ∧
    (∀ e n, 1 ≤ n ∧ n ≤ 32 →
      (m.phase = .ready ∨ m.phase = .complete → workAt (.rdrk e n) m = { conversionsOut := 1 }) ∧
      (m.phase = .initialized → workAt (.rdrk e n) m = { ksupdates := 31, conversionsOut := 1 })) ∧
    (∀ bits width, 1 ≤ width → width ≤ 80 → m.ur.toNat < 2 ^ width →
      workAt (.rol bits width) m = { rotations := 1 } ∧
      workAt (.ror bits width) m = { rotations := 1 }) ∧
    (∀ i, isRefused i m = true → workAt i m = {})) ∧
  ∀ (i i' : Instr) (m m' : State), fieldOp (encode i) = fieldOp (encode i') →
    isRefused i m = isRefused i' m' → (m.phase = .initialized ↔ m'.phase = .initialized) →
      workAt i m = workAt i' m'

/-! ## Headline results -/

/-- R35, R172, R203, R204: every step keeps the machine's invariant. -/
def Obligations.StepKeepsTheInvariant : Prop :=
  ∀ m t : State, Inv m → step m = .next t → Inv t

/-- The state after reset meets the invariant. -/
def Obligations.ResetMeetsTheInvariant : Prop := Inv State.reset

/-- R184: with a key bound, ENC leaves what the 96 single commands leave, but for the final phase. -/
def Obligations.EncEqualsItsSequence : Prop :=
  (∀ e : ByteOrder, (encSequence e).length = 96) ∧
  ∀ (e : ByteOrder) (m : State), m.phase ≠ .empty →
    ∃ t, runCommands (encSequence e) m = .next t ∧ t.phase = .ready ∧
      exec (.enc e 8) m = .next { t with phase := .complete }

/-- R35, R42, R123: two states that differ only in an unbound KEY or in a schedule not generated from
the bound key step alike: no result ever depends on the stale registers. -/
def Obligations.StaleRegistersAreNeverRead : Prop :=
  ∀ m m' : State, SameButStale m m' → SameAnswerButStale (step m) (step m')
end

