-- ==== Sys2Proof/Laws/Cipher.lean ====
section
/-! SUPPORT. Small lemmas of the cipher's functions: the rotations as core's rotations, the loops one
iteration at a time, and the elements of the arrays. -/

namespace Sys2Proof.Machine

theorem rol_eq_rotateLeft (w : Nat) (hw : 0 < w) (v : BitVec w) (b : Nat) :
    rol w hw v b = v.rotateLeft b := by
  have hlt : b % w < w := Nat.mod_lt _ hw
  by_cases h : b % w = 0
  · simp [rol, h, BitVec.rotateLeft, BitVec.rotateLeftAux, BitVec.ushiftRight_eq_zero]
  · simp only [rol, if_neg h, BitVec.rotateLeft, BitVec.rotateLeftAux]
    apply BitVec.add_eq_or_of_and_eq_zero
    ext j hj
    simp
    intro h1 h2
    exact BitVec.getLsbD_of_ge v _ (by omega)

theorem ror_eq_rotateRight (w : Nat) (hw : 0 < w) (v : BitVec w) (b : Nat) :
    ror w hw v b = v.rotateRight b := by
  have hlt : b % w < w := Nat.mod_lt _ hw
  by_cases h : b % w = 0
  · simp [ror, h, BitVec.rotateRight, BitVec.rotateRightAux, BitVec.shiftLeft_eq_zero]
  · simp only [ror, if_neg h, BitVec.rotateRight, BitVec.rotateRightAux]
    apply BitVec.add_eq_or_of_and_eq_zero
    ext j hj
    simp
    intro h1
    by_contra h2
    exact absurd (BitVec.getLsbD_of_ge v (b % w + j) (by omega)) (by simp [h1])

theorem krAfter_zero (key : KeyReg) (h : 0 ≤ 31) : krAfter key 0 h = key := rfl

theorem krAfter_succ (key : KeyReg) (i : Nat) (h : i + 1 ≤ 31) :
    krAfter key (i + 1) h = ksupdate (krAfter key i (by omega)) (i + 1) (by omega) := rfl

theorem roundKeyAt_keyschedule (key : KeyReg) (n : Nat) (h : 1 ≤ n ∧ n ≤ 32) :
    roundKeyAt (keyschedule key) n h = roundkey (krAfter key (n - 1) (by omega)) := by
  simp [roundKeyAt, keyschedule]

theorem blockAfter_zero (rk : Vector Block 32) (s : Block) (h : 0 ≤ 32) : blockAfter rk s 0 h = s := rfl

/-- Iterations 1 to 31 mix, substitute and permute (R180). -/
theorem blockAfter_full (rk : Vector Block 32) (s : Block) (i : Nat) (h : i + 1 ≤ 31) :
    blockAfter rk s (i + 1) (by omega) = player (sboxlayer
      (addrk (blockAfter rk s i (by omega)) (roundKeyAt rk (i + 1) (by omega)))) := by
  have : i + 1 ≠ 32 := by omega
  simp only [blockAfter, if_pos this]

/-- Iteration 32 only mixes (R180). -/
theorem encryptInt_eq (rk : Vector Block 32) (s : Block) :
    encryptInt rk s = addrk (blockAfter rk s 31 (by decide)) (roundKeyAt rk 32 (by decide)) := rfl

/-- Bit i of the first n substituted nibbles (R152). -/
theorem sboxNibbles_bit (s : Block) (n i : Nat) (hi : i < 64) :
    (sboxNibbles s n).getLsbD i =
      (decide (i < 4 * n) && (sbox (nibble s (i / 4))).getLsbD (i % 4)) := by
  induction n with
  | zero => simp [sboxNibbles]
  | succ n ih =>
    simp only [sboxNibbles, BitVec.getLsbD_or, ih, BitVec.getLsbD_shiftLeft, BitVec.getLsbD_setWidth]
    by_cases h1 : i < 4 * n
    · have : i < 4 * (n + 1) := by omega
      simp [h1, this]
    · by_cases h2 : i < 4 * (n + 1)
      · have h3 : i / 4 = n := by omega
        have h4 : i - 4 * n = i % 4 := by omega
        simp [h1, h2, h3, h4, hi]
        omega
      · simp only [h1, h2, hi, decide_false, decide_true, Bool.false_and, Bool.false_or, Bool.not_false,
          Bool.true_and]
        rw [BitVec.getLsbD_of_ge _ _ (by omega), Bool.and_false]

/-- Bit q after the first n bits are moved: it comes from the position that pbox sends to q (R154). -/
theorem movedBits_bit (s : Block) (n : Nat) (hn : n ≤ 64) (q : Nat) (hq : q < 64) :
    (movedBits s n).getLsbD q =
      (decide (4 * (q % 16) + q / 16 < n) && s.getLsbD (4 * (q % 16) + q / 16)) := by
  induction n with
  | zero => simp [movedBits]
  | succ n ih =>
    simp only [movedBits, BitVec.getLsbD_or, ih (by omega), BitVec.getLsbD_shiftLeft, BitVec.getLsbD_setWidth,
      BitVec.getLsbD_extractLsb', pbox]
    by_cases h : 4 * (q % 16) + q / 16 = n
    · have h2 : q = 16 * (n % 4) + n / 4 := by omega
      rw [← h2]
      simp [h, hq]
    · by_cases h1 : 4 * (q % 16) + q / 16 < n
      · have : 4 * (q % 16) + q / 16 < n + 1 := by omega
        simp [h1, this]
        intro _ _ _ _ _
        exfalso
        omega
      · have : ¬ 4 * (q % 16) + q / 16 < n + 1 := by omega
        simp [h1, this]
        omega

theorem i2b_big_get {w : Nat} (v : BitVec w) (n j : Nat) (h : j < n) :
    (i2b .big v n)[j] = v.extractLsb' (8 * (n - 1 - j)) 8 := by simp [i2b]

theorem i2b_little_get {w : Nat} (v : BitVec w) (n j : Nat) (h : j < n) :
    (i2b .little v n)[j] = v.extractLsb' (8 * j) 8 := by simp [i2b]

theorem bytesValue_cons (b : Byte) (bs : List Byte) :
    bytesValue (b :: bs) = b.toNat + 256 * bytesValue bs := rfl

/-- A byte sequence of length n stands for a number below 2^(8n) (R57). -/
theorem bytesValue_lt (bs : List Byte) : bytesValue bs < 2 ^ (8 * bs.length) := by
  induction bs with
  | nil => simp [bytesValue]
  | cons b bs ih =>
    have hb := b.isLt
    rw [bytesValue_cons, List.length_cons, Nat.mul_add, Nat.pow_add]
    omega

end Sys2Proof.Machine
end

