-- ==== Sys2Proof/Laws/Decode.lean ====
section
/-! SUPPORT. Decoding row by row: no word selects two rows of the opcode map (R83), and decode is the row a
word selects (R84). -/

namespace Sys2Proof.Laws

/-- Every row fixes all four bits of the opcode. -/
theorem mask_covers_op : ∀ r ∈ opcodeMap, r.mask.extractLsb' 28 4 = 0xF#4 := by decide

/-- The opcode differs in every row (R83). -/
theorem rows_have_distinct_op :
    opcodeMap.Pairwise fun r r' => r.pattern.extractLsb' 28 4 ≠ r'.pattern.extractLsb' 28 4 := by decide

theorem fieldOp_of_selects {c : Word} {r : OpRow} (hr : r ∈ opcodeMap) (h : selects c r = true) :
    fieldOp c = r.pattern.extractLsb' 28 4 := by
  have h : c &&& r.mask = r.pattern := by simpa [selects] using h
  rw [← h, BitVec.extractLsb'_and, mask_covers_op r hr]
  exact (BitVec.and_allOnes (x := c.extractLsb' 28 4)).symm

/-- No word selects two rows (R83). -/
theorem selects_unique {c : Word} {r r' : OpRow} (hr : r ∈ opcodeMap) (hr' : r' ∈ opcodeMap)
    (h : selects c r = true) (h' : selects c r' = true) : r = r' := by
  have he : r.pattern.extractLsb' 28 4 = r'.pattern.extractLsb' 28 4 := by
    rw [← fieldOp_of_selects hr h, ← fieldOp_of_selects hr' h']
  obtain ⟨i, hi, rfl⟩ := List.getElem_of_mem hr
  obtain ⟨j, hj, rfl⟩ := List.getElem_of_mem hr'
  have distinct := List.pairwise_iff_getElem.1 rows_have_distinct_op
  rcases Nat.lt_trichotomy i j with hij | hij | hij
  · exact absurd he (distinct i j hi hj hij)
  · subst hij; rfl
  · exact absurd he.symm (distinct j i hj hi hij)

/-- A word that selects a row decodes to that row's command (R84). -/
theorem decode_of_selects {c : Word} {r : OpRow} (hr : r ∈ opcodeMap) (h : selects c r = true) :
    decode c = .command (r.build (fieldE c) (fieldA c) (fieldW c) (fieldN c)) := by
  cases hf : opcodeMap.find? (selects c) with
  | none => exact absurd h (by simpa using List.find?_eq_none.1 hf r hr)
  | some r' =>
    have same : r' = r := selects_unique (List.mem_of_find?_eq_some hf) hr (List.find?_some hf) h
    simp only [decode, hf, same]

/-- A word that selects no row is illegal (R84). -/
theorem decode_of_selects_none {c : Word} (h : ∀ r ∈ opcodeMap, selects c r = false) :
    decode c = .illegal (illegalReason c) := by
  have none : opcodeMap.find? (selects c) = none := by simpa using h
  simp only [decode, none]

end Sys2Proof.Laws
end

