-- ==== Sys2Proof/Laws/State.lean ====
section
/-! SUPPORT. One lemma per field per update of the state, so that no later proof unfolds an update. -/

namespace Sys2Proof.Machine

variable (m : State)

@[simp] theorem State.setKin_kin (v : Vector Byte 10) : (m.setKin v).kin = v := rfl
@[simp] theorem State.setKin_din (v : Vector Byte 10) : (m.setKin v).din = m.din := rfl
@[simp] theorem State.setKin_dout (v : Vector Byte 10) : (m.setKin v).dout = m.dout := rfl
@[simp] theorem State.setKin_ur (v : Vector Byte 10) : (m.setKin v).ur = m.ur := rfl
@[simp] theorem State.setKin_key (v : Vector Byte 10) : (m.setKin v).key = m.key := rfl
@[simp] theorem State.setKin_kr (v : Vector Byte 10) : (m.setKin v).kr = m.kr := rfl
@[simp] theorem State.setKin_rk (v : Vector Byte 10) : (m.setKin v).rk = m.rk := rfl
@[simp] theorem State.setKin_s (v : Vector Byte 10) : (m.setKin v).s = m.s := rfl
@[simp] theorem State.setKin_phase (v : Vector Byte 10) : (m.setKin v).phase = m.phase := rfl
@[simp] theorem State.setKin_err (v : Vector Byte 10) : (m.setKin v).err = m.err := rfl
@[simp] theorem State.setKin_pending (v : Vector Byte 10) : (m.setKin v).pending = m.pending := rfl
@[simp] theorem State.setKin_answers (v : Vector Byte 10) : (m.setKin v).answers = m.answers := rfl
@[simp] theorem State.setKin_draws (v : Vector Byte 10) : (m.setKin v).draws = m.draws := rfl

@[simp] theorem State.setDin_kin (v : Vector Byte 8) : (m.setDin v).kin = m.kin := rfl
@[simp] theorem State.setDin_din (v : Vector Byte 8) : (m.setDin v).din = v := rfl
@[simp] theorem State.setDin_dout (v : Vector Byte 8) : (m.setDin v).dout = m.dout := rfl
@[simp] theorem State.setDin_ur (v : Vector Byte 8) : (m.setDin v).ur = m.ur := rfl
@[simp] theorem State.setDin_key (v : Vector Byte 8) : (m.setDin v).key = m.key := rfl
@[simp] theorem State.setDin_kr (v : Vector Byte 8) : (m.setDin v).kr = m.kr := rfl
@[simp] theorem State.setDin_rk (v : Vector Byte 8) : (m.setDin v).rk = m.rk := rfl
@[simp] theorem State.setDin_s (v : Vector Byte 8) : (m.setDin v).s = m.s := rfl
@[simp] theorem State.setDin_phase (v : Vector Byte 8) : (m.setDin v).phase = m.phase := rfl
@[simp] theorem State.setDin_err (v : Vector Byte 8) : (m.setDin v).err = m.err := rfl
@[simp] theorem State.setDin_pending (v : Vector Byte 8) : (m.setDin v).pending = m.pending := rfl
@[simp] theorem State.setDin_answers (v : Vector Byte 8) : (m.setDin v).answers = m.answers := rfl
@[simp] theorem State.setDin_draws (v : Vector Byte 8) : (m.setDin v).draws = m.draws := rfl

@[simp] theorem State.setDout_kin (v : Vector Byte 8) : (m.setDout v).kin = m.kin := rfl
@[simp] theorem State.setDout_din (v : Vector Byte 8) : (m.setDout v).din = m.din := rfl
@[simp] theorem State.setDout_dout (v : Vector Byte 8) : (m.setDout v).dout = v := rfl
@[simp] theorem State.setDout_ur (v : Vector Byte 8) : (m.setDout v).ur = m.ur := rfl
@[simp] theorem State.setDout_key (v : Vector Byte 8) : (m.setDout v).key = m.key := rfl
@[simp] theorem State.setDout_kr (v : Vector Byte 8) : (m.setDout v).kr = m.kr := rfl
@[simp] theorem State.setDout_rk (v : Vector Byte 8) : (m.setDout v).rk = m.rk := rfl
@[simp] theorem State.setDout_s (v : Vector Byte 8) : (m.setDout v).s = m.s := rfl
@[simp] theorem State.setDout_phase (v : Vector Byte 8) : (m.setDout v).phase = m.phase := rfl
@[simp] theorem State.setDout_err (v : Vector Byte 8) : (m.setDout v).err = m.err := rfl
@[simp] theorem State.setDout_pending (v : Vector Byte 8) : (m.setDout v).pending = m.pending := rfl
@[simp] theorem State.setDout_answers (v : Vector Byte 8) : (m.setDout v).answers = m.answers := rfl
@[simp] theorem State.setDout_draws (v : Vector Byte 8) : (m.setDout v).draws = m.draws := rfl

@[simp] theorem State.setUr_kin (v : KeyReg) : (m.setUr v).kin = m.kin := rfl
@[simp] theorem State.setUr_din (v : KeyReg) : (m.setUr v).din = m.din := rfl
@[simp] theorem State.setUr_dout (v : KeyReg) : (m.setUr v).dout = m.dout := rfl
@[simp] theorem State.setUr_ur (v : KeyReg) : (m.setUr v).ur = v := rfl
@[simp] theorem State.setUr_key (v : KeyReg) : (m.setUr v).key = m.key := rfl
@[simp] theorem State.setUr_kr (v : KeyReg) : (m.setUr v).kr = m.kr := rfl
@[simp] theorem State.setUr_rk (v : KeyReg) : (m.setUr v).rk = m.rk := rfl
@[simp] theorem State.setUr_s (v : KeyReg) : (m.setUr v).s = m.s := rfl
@[simp] theorem State.setUr_phase (v : KeyReg) : (m.setUr v).phase = m.phase := rfl
@[simp] theorem State.setUr_err (v : KeyReg) : (m.setUr v).err = m.err := rfl
@[simp] theorem State.setUr_pending (v : KeyReg) : (m.setUr v).pending = m.pending := rfl
@[simp] theorem State.setUr_answers (v : KeyReg) : (m.setUr v).answers = m.answers := rfl
@[simp] theorem State.setUr_draws (v : KeyReg) : (m.setUr v).draws = m.draws := rfl

@[simp] theorem State.setKey_kin (v : KeyReg) : (m.setKey v).kin = m.kin := rfl
@[simp] theorem State.setKey_din (v : KeyReg) : (m.setKey v).din = m.din := rfl
@[simp] theorem State.setKey_dout (v : KeyReg) : (m.setKey v).dout = m.dout := rfl
@[simp] theorem State.setKey_ur (v : KeyReg) : (m.setKey v).ur = m.ur := rfl
@[simp] theorem State.setKey_key (v : KeyReg) : (m.setKey v).key = v := rfl
@[simp] theorem State.setKey_kr (v : KeyReg) : (m.setKey v).kr = m.kr := rfl
@[simp] theorem State.setKey_rk (v : KeyReg) : (m.setKey v).rk = m.rk := rfl
@[simp] theorem State.setKey_s (v : KeyReg) : (m.setKey v).s = m.s := rfl
@[simp] theorem State.setKey_phase (v : KeyReg) : (m.setKey v).phase = m.phase := rfl
@[simp] theorem State.setKey_err (v : KeyReg) : (m.setKey v).err = m.err := rfl
@[simp] theorem State.setKey_pending (v : KeyReg) : (m.setKey v).pending = m.pending := rfl
@[simp] theorem State.setKey_answers (v : KeyReg) : (m.setKey v).answers = m.answers := rfl
@[simp] theorem State.setKey_draws (v : KeyReg) : (m.setKey v).draws = m.draws := rfl

@[simp] theorem State.setSchedule_kin (kr : KeyReg) (rk : Vector Block 32) : (m.setSchedule kr rk).kin = m.kin := rfl
@[simp] theorem State.setSchedule_din (kr : KeyReg) (rk : Vector Block 32) : (m.setSchedule kr rk).din = m.din := rfl
@[simp] theorem State.setSchedule_dout (kr : KeyReg) (rk : Vector Block 32) : (m.setSchedule kr rk).dout = m.dout := rfl
@[simp] theorem State.setSchedule_ur (kr : KeyReg) (rk : Vector Block 32) : (m.setSchedule kr rk).ur = m.ur := rfl
@[simp] theorem State.setSchedule_key (kr : KeyReg) (rk : Vector Block 32) : (m.setSchedule kr rk).key = m.key := rfl
@[simp] theorem State.setSchedule_kr (kr : KeyReg) (rk : Vector Block 32) : (m.setSchedule kr rk).kr = kr := rfl
@[simp] theorem State.setSchedule_rk (kr : KeyReg) (rk : Vector Block 32) : (m.setSchedule kr rk).rk = rk := rfl
@[simp] theorem State.setSchedule_s (kr : KeyReg) (rk : Vector Block 32) : (m.setSchedule kr rk).s = m.s := rfl
@[simp] theorem State.setSchedule_phase (kr : KeyReg) (rk : Vector Block 32) : (m.setSchedule kr rk).phase = m.phase := rfl
@[simp] theorem State.setSchedule_err (kr : KeyReg) (rk : Vector Block 32) : (m.setSchedule kr rk).err = m.err := rfl
@[simp] theorem State.setSchedule_pending (kr : KeyReg) (rk : Vector Block 32) : (m.setSchedule kr rk).pending = m.pending := rfl
@[simp] theorem State.setSchedule_answers (kr : KeyReg) (rk : Vector Block 32) : (m.setSchedule kr rk).answers = m.answers := rfl
@[simp] theorem State.setSchedule_draws (kr : KeyReg) (rk : Vector Block 32) : (m.setSchedule kr rk).draws = m.draws := rfl

@[simp] theorem State.setS_kin (v : Block) : (m.setS v).kin = m.kin := rfl
@[simp] theorem State.setS_din (v : Block) : (m.setS v).din = m.din := rfl
@[simp] theorem State.setS_dout (v : Block) : (m.setS v).dout = m.dout := rfl
@[simp] theorem State.setS_ur (v : Block) : (m.setS v).ur = m.ur := rfl
@[simp] theorem State.setS_key (v : Block) : (m.setS v).key = m.key := rfl
@[simp] theorem State.setS_kr (v : Block) : (m.setS v).kr = m.kr := rfl
@[simp] theorem State.setS_rk (v : Block) : (m.setS v).rk = m.rk := rfl
@[simp] theorem State.setS_s (v : Block) : (m.setS v).s = v := rfl
@[simp] theorem State.setS_phase (v : Block) : (m.setS v).phase = m.phase := rfl
@[simp] theorem State.setS_err (v : Block) : (m.setS v).err = m.err := rfl
@[simp] theorem State.setS_pending (v : Block) : (m.setS v).pending = m.pending := rfl
@[simp] theorem State.setS_answers (v : Block) : (m.setS v).answers = m.answers := rfl
@[simp] theorem State.setS_draws (v : Block) : (m.setS v).draws = m.draws := rfl

@[simp] theorem State.setPhase_kin (p : Phase) : (m.setPhase p).kin = m.kin := rfl
@[simp] theorem State.setPhase_din (p : Phase) : (m.setPhase p).din = m.din := rfl
@[simp] theorem State.setPhase_dout (p : Phase) : (m.setPhase p).dout = m.dout := rfl
@[simp] theorem State.setPhase_ur (p : Phase) : (m.setPhase p).ur = m.ur := rfl
@[simp] theorem State.setPhase_key (p : Phase) : (m.setPhase p).key = m.key := rfl
@[simp] theorem State.setPhase_kr (p : Phase) : (m.setPhase p).kr = m.kr := rfl
@[simp] theorem State.setPhase_rk (p : Phase) : (m.setPhase p).rk = m.rk := rfl
@[simp] theorem State.setPhase_s (p : Phase) : (m.setPhase p).s = m.s := rfl
@[simp] theorem State.setPhase_phase (p : Phase) : (m.setPhase p).phase = p := rfl
@[simp] theorem State.setPhase_err (p : Phase) : (m.setPhase p).err = m.err := rfl
@[simp] theorem State.setPhase_pending (p : Phase) : (m.setPhase p).pending = m.pending := rfl
@[simp] theorem State.setPhase_answers (p : Phase) : (m.setPhase p).answers = m.answers := rfl
@[simp] theorem State.setPhase_draws (p : Phase) : (m.setPhase p).draws = m.draws := rfl

@[simp] theorem State.setErr_kin (e : Err) : (m.setErr e).kin = m.kin := rfl
@[simp] theorem State.setErr_din (e : Err) : (m.setErr e).din = m.din := rfl
@[simp] theorem State.setErr_dout (e : Err) : (m.setErr e).dout = m.dout := rfl
@[simp] theorem State.setErr_ur (e : Err) : (m.setErr e).ur = m.ur := rfl
@[simp] theorem State.setErr_key (e : Err) : (m.setErr e).key = m.key := rfl
@[simp] theorem State.setErr_kr (e : Err) : (m.setErr e).kr = m.kr := rfl
@[simp] theorem State.setErr_rk (e : Err) : (m.setErr e).rk = m.rk := rfl
@[simp] theorem State.setErr_s (e : Err) : (m.setErr e).s = m.s := rfl
@[simp] theorem State.setErr_phase (e : Err) : (m.setErr e).phase = m.phase := rfl
@[simp] theorem State.setErr_err (e : Err) : (m.setErr e).err = e := rfl
@[simp] theorem State.setErr_pending (e : Err) : (m.setErr e).pending = m.pending := rfl
@[simp] theorem State.setErr_answers (e : Err) : (m.setErr e).answers = m.answers := rfl
@[simp] theorem State.setErr_draws (e : Err) : (m.setErr e).draws = m.draws := rfl

@[simp] theorem State.setPending_kin (l : List HostStep) : (m.setPending l).kin = m.kin := rfl
@[simp] theorem State.setPending_din (l : List HostStep) : (m.setPending l).din = m.din := rfl
@[simp] theorem State.setPending_dout (l : List HostStep) : (m.setPending l).dout = m.dout := rfl
@[simp] theorem State.setPending_ur (l : List HostStep) : (m.setPending l).ur = m.ur := rfl
@[simp] theorem State.setPending_key (l : List HostStep) : (m.setPending l).key = m.key := rfl
@[simp] theorem State.setPending_kr (l : List HostStep) : (m.setPending l).kr = m.kr := rfl
@[simp] theorem State.setPending_rk (l : List HostStep) : (m.setPending l).rk = m.rk := rfl
@[simp] theorem State.setPending_s (l : List HostStep) : (m.setPending l).s = m.s := rfl
@[simp] theorem State.setPending_phase (l : List HostStep) : (m.setPending l).phase = m.phase := rfl
@[simp] theorem State.setPending_err (l : List HostStep) : (m.setPending l).err = m.err := rfl
@[simp] theorem State.setPending_pending (l : List HostStep) : (m.setPending l).pending = l := rfl
@[simp] theorem State.setPending_answers (l : List HostStep) : (m.setPending l).answers = m.answers := rfl
@[simp] theorem State.setPending_draws (l : List HostStep) : (m.setPending l).draws = m.draws := rfl

@[simp] theorem State.pushAnswer_kin (v : BusValue) : (m.pushAnswer v).kin = m.kin := rfl
@[simp] theorem State.pushAnswer_din (v : BusValue) : (m.pushAnswer v).din = m.din := rfl
@[simp] theorem State.pushAnswer_dout (v : BusValue) : (m.pushAnswer v).dout = m.dout := rfl
@[simp] theorem State.pushAnswer_ur (v : BusValue) : (m.pushAnswer v).ur = m.ur := rfl
@[simp] theorem State.pushAnswer_key (v : BusValue) : (m.pushAnswer v).key = m.key := rfl
@[simp] theorem State.pushAnswer_kr (v : BusValue) : (m.pushAnswer v).kr = m.kr := rfl
@[simp] theorem State.pushAnswer_rk (v : BusValue) : (m.pushAnswer v).rk = m.rk := rfl
@[simp] theorem State.pushAnswer_s (v : BusValue) : (m.pushAnswer v).s = m.s := rfl
@[simp] theorem State.pushAnswer_phase (v : BusValue) : (m.pushAnswer v).phase = m.phase := rfl
@[simp] theorem State.pushAnswer_err (v : BusValue) : (m.pushAnswer v).err = m.err := rfl
@[simp] theorem State.pushAnswer_pending (v : BusValue) : (m.pushAnswer v).pending = m.pending := rfl
@[simp] theorem State.pushAnswer_answers (v : BusValue) : (m.pushAnswer v).answers = m.answers ++ [v] := rfl
@[simp] theorem State.pushAnswer_draws (v : BusValue) : (m.pushAnswer v).draws = m.draws := rfl

@[simp] theorem takeWord_kin : (takeWord m).kin = m.kin := rfl
@[simp] theorem takeWord_din : (takeWord m).din = m.din := rfl
@[simp] theorem takeWord_dout : (takeWord m).dout = m.dout := rfl
@[simp] theorem takeWord_ur : (takeWord m).ur = m.ur := rfl
@[simp] theorem takeWord_key : (takeWord m).key = m.key := rfl
@[simp] theorem takeWord_kr : (takeWord m).kr = m.kr := rfl
@[simp] theorem takeWord_rk : (takeWord m).rk = m.rk := rfl
@[simp] theorem takeWord_s : (takeWord m).s = m.s := rfl
@[simp] theorem takeWord_phase : (takeWord m).phase = leaveComplete m.phase := rfl
@[simp] theorem takeWord_err : (takeWord m).err = m.err := rfl
@[simp] theorem takeWord_pending : (takeWord m).pending = m.pending := rfl
@[simp] theorem takeWord_answers : (takeWord m).answers = m.answers := rfl
@[simp] theorem takeWord_draws : (takeWord m).draws = m.draws := rfl

end Sys2Proof.Machine
end

