-- ==== Sys2Proof/Laws/Ops.lean ====
section
/-! SUPPORT. What each shared operation over the state can do, said once. -/

namespace Sys2Proof.Machine

theorem leaveComplete_eq (p : Phase) : leaveComplete p = if p = .complete then .ready else p := by
  cases p <;> rfl

theorem leaveComplete_of_ne {p : Phase} (h : p ≠ .complete) : leaveComplete p = p := by
  rw [leaveComplete_eq, if_neg h]

theorem leaveComplete_ne_complete (p : Phase) : leaveComplete p ≠ .complete := by
  cases p <;> simp [leaveComplete]

@[simp] theorem leaveComplete_eq_empty (p : Phase) : leaveComplete p = .empty ↔ p = .empty := by
  cases p <;> simp [leaveComplete]

@[simp] theorem leaveComplete_eq_initialized (p : Phase) :
    leaveComplete p = .initialized ↔ p = .initialized := by
  cases p <;> simp [leaveComplete]

theorem leaveComplete_eq_ready (p : Phase) :
    leaveComplete p = .ready ↔ p = .ready ∨ p = .complete := by
  cases p <;> simp [leaveComplete]

theorem raise_eq (e : Err) (m : State) : raise e m = .next (m.setErr e) := rfl

theorem finish_eq (m : State) : finish m = .next (m.setErr .noError) := rfl

theorem needKey_empty {m : State} (h : m.phase = .empty) (body : State → Answer) :
    needKey m body = .next (m.setErr .noKey) := if_pos h

theorem needKey_bound {m : State} (h : m.phase ≠ .empty) (body : State → Answer) :
    needKey m body = body m := if_neg h

theorem ensureSchedule_initialized {m : State} (h : m.phase = .initialized) :
    ensureSchedule m = (generateSchedule m).setPhase .ready := if_pos h

theorem ensureSchedule_of_ne {m : State} (h : m.phase ≠ .initialized) : ensureSchedule m = m := if_neg h

/-- EnsureSchedule writes KR, RK and PHASE only (R137). -/
theorem ensureSchedule_frame (m : State) :
    ensureSchedule m = { m with
      kr := (ensureSchedule m).kr, rk := (ensureSchedule m).rk, phase := (ensureSchedule m).phase } := by
  unfold ensureSchedule
  split <;> rfl

/-- Everything the shared body of ADDRK and RDRK can do: NoKey, then InvalidOperand, then the action on
the round key after EnsureSchedule. -/
theorem useRoundKey_cases (n : Nat) (m : State) (action : State → Block → State) :
    (m.phase = .empty ∧ useRoundKey n m action = .next (m.setErr .noKey)) ∨
    (m.phase ≠ .empty ∧ ¬ (1 ≤ n ∧ n ≤ 32) ∧
      useRoundKey n m action = .next (m.setErr .invalidOperand)) ∨
    (m.phase ≠ .empty ∧ ∃ h : 1 ≤ n ∧ n ≤ 32, useRoundKey n m action = .next
      (((action (ensureSchedule m) (roundKeyAt (ensureSchedule m).rk n h)).setPhase .ready).setErr
        .noError)) := by
  by_cases hp : m.phase = .empty
  · exact .inl ⟨hp, needKey_empty hp _⟩
  · by_cases h : 1 ≤ n ∧ n ≤ 32
    · refine .inr (.inr ⟨hp, h, ?_⟩)
      simp only [useRoundKey, needKey_bound hp, dif_pos h, finish_eq]
    · refine .inr (.inl ⟨hp, h, ?_⟩)
      simp only [useRoundKey, needKey_bound hp, dif_neg h, raise_eq]

/-- Everything the shared body of ROL and ROR can do: InvalidOperand for a bad width or value, else the
rotation of UR. -/
theorem rotateUr_cases (rot : (w : Nat) → 0 < w → BitVec w → Nat → BitVec w) (bits width : Nat)
    (m : State) :
    ((width = 0 ∨ 80 < width ∨ 2 ^ width ≤ m.ur.toNat) ∧
      rotateUr rot bits width m = .next ((takeWord m).setErr .invalidOperand)) ∨
    (∃ h : 0 < width, width ≤ 80 ∧ m.ur.toNat < 2 ^ width ∧
      rotateUr rot bits width m = .next (((takeWord m).setUr
        ((rot width h (m.ur.setWidth width) bits).setWidth 80)).setErr .noError)) := by
  by_cases hw : width = 0 ∨ 80 < width
  · refine .inl ⟨by omega, ?_⟩
    have hw' : width = 0 ∨ Config.maxWidth < width := hw
    simp only [rotateUr, dif_pos hw', raise_eq]
  · have hw' : ¬ (width = 0 ∨ Config.maxWidth < width) := hw
    by_cases hv : 2 ^ width ≤ m.ur.toNat
    · refine .inl ⟨.inr (.inr hv), ?_⟩
      rw [rotateUr, dif_neg hw', if_pos (by simpa using hv), raise_eq]
    · refine .inr ⟨by omega, by omega, by omega, ?_⟩
      rw [rotateUr, dif_neg hw', if_neg (by simpa using hv), finish_eq, takeWord_ur]

end Sys2Proof.Machine
end

