-- ==== Sys2Proof/Laws/Exec.lean ====
section
/-! SUPPORT. Each command as one next state: what it answers where it is refused and where it completes.
Cite these instead of unfolding exec. -/

namespace Sys2Proof.Machine

/-- A refused command: the common step, then the error code (R206). -/
abbrev refusedWith (e : Err) (m : State) : State := (takeWord m).setErr e

theorem exec_nop (m : State) : exec .nop m = .next m := rfl

theorem exec_ldkey (e : ByteOrder) (len : Nat) (m : State) :
    exec (.ldkey e len) m = .next (if len = 10 then
      (((takeWord m).setKey (keyInteger e m)).setPhase .initialized).setErr .noError
      else refusedWith .invalidKeySize m) := by
  show execLdkey e len m = _
  by_cases h : len = 10
  · subst h; rfl
  · rw [execLdkey, if_pos (by exact h), if_neg h, raise_eq]

theorem exec_ksched (m : State) :
    exec .ksched m = .next (if m.phase = .empty then refusedWith .noKey m
      else ((generateSchedule (takeWord m)).setPhase .ready).setErr .noError) := by
  show execKsched m = _
  by_cases h : m.phase = .empty
  · rw [execKsched, needKey_empty (by simpa using h), if_pos h]
  · rw [execKsched, needKey_bound (by simpa using h), if_neg h, finish_eq]

/-- What ENC does to a state with a valid or freshly generated schedule (R181). -/
abbrev encrypted (e : ByteOrder) (m : State) : State :=
  (((m.setS (encryptInt m.rk (blockInteger e m))).setDout
    (i2b e (encryptInt m.rk (blockInteger e m)) 8)).setPhase .complete).setErr .noError

theorem exec_enc (e : ByteOrder) (len : Nat) (m : State) :
    exec (.enc e len) m = .next (if m.phase = .empty then refusedWith .noKey m
      else if len = 8 then encrypted e (ensureSchedule (takeWord m))
      else refusedWith .invalidBlockSize m) := by
  show execEnc e len m = _
  by_cases h : m.phase = .empty
  · rw [execEnc, needKey_empty (by simpa using h), if_pos h]
  · rw [execEnc, needKey_bound (by simpa using h), if_neg h]
    by_cases h8 : len = 8
    · subst h8; rfl
    · rw [if_pos (by exact h8), if_neg h8, raise_eq]

theorem exec_ldblk (e : ByteOrder) (len : Nat) (m : State) :
    exec (.ldblk e len) m = .next (if len = 8 then
      ((takeWord m).setS (blockInteger e m)).setErr .noError
      else refusedWith .invalidBlockSize m) := by
  show execLdblk e len m = _
  by_cases h : len = 8
  · subst h; rfl
  · rw [execLdblk, if_pos (by exact h), if_neg h, raise_eq]

theorem exec_stblk (e : ByteOrder) (m : State) :
    exec (.stblk e) m = .next (((takeWord m).setDout (i2b e m.s 8)).setErr .noError) := rfl

theorem exec_sboxl (m : State) :
    exec .sboxl m = .next (((takeWord m).setS (sboxlayer m.s)).setErr .noError) := rfl

theorem exec_perml (m : State) :
    exec .perml m = .next (((takeWord m).setS (player m.s)).setErr .noError) := rfl

theorem exec_addrk (n : Nat) (m : State) :
    exec (.addrk n) m = .next (if m.phase = .empty then refusedWith .noKey m
      else if h : 1 ≤ n ∧ n ≤ 32 then
        (((ensureSchedule (takeWord m)).setS (addrk (ensureSchedule (takeWord m)).s
          (roundKeyAt (ensureSchedule (takeWord m)).rk n h))).setPhase .ready).setErr .noError
      else refusedWith .invalidOperand m) := by
  show execAddrk n m = _
  rcases useRoundKey_cases n (takeWord m) fun m k => m.setS (addrk m.s k) with
    ⟨h, e⟩ | ⟨h, hn, e⟩ | ⟨h, hn, e⟩
  · rw [execAddrk, e, if_pos (by simpa using h)]
  · rw [execAddrk, e, if_neg (by simpa using h), dif_neg hn]
  · rw [execAddrk, e, if_neg (by simpa using h), dif_pos hn]

theorem exec_rdrk (e : ByteOrder) (n : Nat) (m : State) :
    exec (.rdrk e n) m = .next (if m.phase = .empty then refusedWith .noKey m
      else if h : 1 ≤ n ∧ n ≤ 32 then
        (((ensureSchedule (takeWord m)).setDout
          (i2b e (roundKeyAt (ensureSchedule (takeWord m)).rk n h) 8)).setPhase .ready).setErr .noError
      else refusedWith .invalidOperand m) := by
  show execRdrk e n m = _
  rcases useRoundKey_cases n (takeWord m) fun m k => m.setDout (i2b e k 8) with
    ⟨h, eq⟩ | ⟨h, hn, eq⟩ | ⟨h, hn, eq⟩
  · rw [execRdrk, eq, if_pos (by simpa using h)]
  · rw [execRdrk, eq, if_neg (by simpa using h), dif_neg hn]
  · rw [execRdrk, eq, if_neg (by simpa using h), dif_pos hn]

/-- The operands ROL and ROR refuse (R108). -/
abbrev badRotation (width : Nat) (m : State) : Prop :=
  width = 0 ∨ 80 < width ∨ 2 ^ width ≤ m.ur.toNat

theorem exec_rol (bits width : Nat) (m : State) :
    exec (.rol bits width) m = .next (if h : badRotation width m then refusedWith .invalidOperand m
      else ((takeWord m).setUr ((rol width (by omega) (m.ur.setWidth width) bits).setWidth 80)).setErr
        .noError) := by
  show execRol bits width m = _
  rcases rotateUr_cases rol bits width m with ⟨h, e⟩ | ⟨h, h1, h2, e⟩
  · rw [execRol, e, dif_pos h]
  · rw [execRol, e, dif_neg (by omega)]

theorem exec_ror (bits width : Nat) (m : State) :
    exec (.ror bits width) m = .next (if h : badRotation width m then refusedWith .invalidOperand m
      else ((takeWord m).setUr ((ror width (by omega) (m.ur.setWidth width) bits).setWidth 80)).setErr
        .noError) := by
  show execRor bits width m = _
  rcases rotateUr_cases ror bits width m with ⟨h, e⟩ | ⟨h, h1, h2, e⟩
  · rw [execRor, e, dif_pos h]
  · rw [execRor, e, dif_neg (by omega)]

/-- No command stops: every command ends in a next state (R185). -/
theorem exec_completes (i : Instr) (m : State) : ∃ t, exec i m = .next t := by
  cases i
  case nop => exact ⟨_, exec_nop m⟩
  case ldkey e len => exact ⟨_, exec_ldkey e len m⟩
  case ksched => exact ⟨_, exec_ksched m⟩
  case enc e len => exact ⟨_, exec_enc e len m⟩
  case ldblk e len => exact ⟨_, exec_ldblk e len m⟩
  case stblk e => exact ⟨_, exec_stblk e m⟩
  case addrk n => exact ⟨_, exec_addrk n m⟩
  case sboxl => exact ⟨_, exec_sboxl m⟩
  case perml => exact ⟨_, exec_perml m⟩
  case rdrk e n => exact ⟨_, exec_rdrk e n m⟩
  case rol bits width => exact ⟨_, exec_rol bits width m⟩
  case ror bits width => exact ⟨_, exec_ror bits width m⟩

end Sys2Proof.Machine
end

