-- ==== Sys2Proof/Laws/PerInstr.lean ====
section
/-! SUPPORT. Per-instruction statements: the word of every command has the fixed bits of its own row of
the opcode map (R82, R83). -/

namespace Sys2Proof.Laws

/-- The opcode of a command, its row of R83. -/
def opcodeOf : Instr → BitVec 4
  | .nop => 0x0
  | .ldkey _ _ => 0x1
  | .ksched => 0x2
  | .enc _ _ => 0x3
  | .ldblk _ _ => 0x4
  | .stblk _ => 0x5
  | .addrk _ => 0x6
  | .sboxl => 0x7
  | .perml => 0x8
  | .rdrk _ _ => 0x9
  | .rol _ _ => 0xA
  | .ror _ _ => 0xB

theorem append_toNat {k n : Nat} (x : BitVec k) (y : BitVec n) :
    (x ++ y).toNat = x.toNat * 2 ^ n + y.toNat := by
  rw [BitVec.toNat_append, ← Nat.shiftLeft_add_eq_or_of_lt y.isLt, Nat.shiftLeft_eq]

/-- The number a word of assembled fields stands for (R81, R90). -/
theorem assemble_toNat (op : BitVec 4) (e : ByteOrder) (a w n : Nat) :
    (assemble op e a w n).toNat =
      op.toNat * 2 ^ 28 + (orderBit e).toNat * 2 ^ 24 + a % 256 * 2 ^ 16 + w % 256 * 2 ^ 8 + n % 256 := by
  have hop := op.isLt
  have he := (orderBit e).isLt
  simp only [assemble, append_toNat, BitVec.toNat_ofNat]
  omega

theorem fieldOp_assemble (op : BitVec 4) (e : ByteOrder) (a w n : Nat) :
    fieldOp (assemble op e a w n) = op := by
  apply BitVec.eq_of_toNat_eq
  have he := (orderBit e).isLt
  have hop := op.isLt
  simp only [fieldOp, BitVec.extractLsb'_toNat, assemble_toNat, Nat.shiftRight_eq_div_pow]
  omega

theorem fieldZ_assemble (op : BitVec 4) (e : ByteOrder) (a w n : Nat) :
    fieldZ (assemble op e a w n) = 0#3 := by
  apply BitVec.eq_of_toNat_eq
  have he := (orderBit e).isLt
  simp only [fieldZ, BitVec.extractLsb'_toNat, assemble_toNat, Nat.shiftRight_eq_div_pow]
  simp
  omega

end Sys2Proof.Laws

namespace Sys2Proof.Laws.FixedFields

/-- The word of a command carries its row's opcode in bits 31:28 and zeros in the reserved field Z
(R81, R83, R86). -/
def Statement (i : Instr) : Prop := fieldOp (encode i) = opcodeOf i ∧ fieldZ (encode i) = 0#3

theorem nop : Statement .nop := ⟨fieldOp_assemble .., fieldZ_assemble ..⟩
theorem ldkey (e : ByteOrder) (len : Nat) : Statement (.ldkey e len) :=
  ⟨fieldOp_assemble .., fieldZ_assemble ..⟩
theorem ksched : Statement .ksched := ⟨fieldOp_assemble .., fieldZ_assemble ..⟩
theorem enc (e : ByteOrder) (len : Nat) : Statement (.enc e len) :=
  ⟨fieldOp_assemble .., fieldZ_assemble ..⟩
theorem ldblk (e : ByteOrder) (len : Nat) : Statement (.ldblk e len) :=
  ⟨fieldOp_assemble .., fieldZ_assemble ..⟩
theorem stblk (e : ByteOrder) : Statement (.stblk e) := ⟨fieldOp_assemble .., fieldZ_assemble ..⟩
theorem addrk (n : Nat) : Statement (.addrk n) := ⟨fieldOp_assemble .., fieldZ_assemble ..⟩
theorem sboxl : Statement .sboxl := ⟨fieldOp_assemble .., fieldZ_assemble ..⟩
theorem perml : Statement .perml := ⟨fieldOp_assemble .., fieldZ_assemble ..⟩
theorem rdrk (e : ByteOrder) (n : Nat) : Statement (.rdrk e n) :=
  ⟨fieldOp_assemble .., fieldZ_assemble ..⟩
theorem rol (bits width : Nat) : Statement (.rol bits width) :=
  ⟨fieldOp_assemble .., fieldZ_assemble ..⟩
theorem ror (bits width : Nat) : Statement (.ror bits width) :=
  ⟨fieldOp_assemble .., fieldZ_assemble ..⟩

end Sys2Proof.Laws.FixedFields
end

