-- ==== Sys2Proof/Laws/Port.lean ====
section
/-! SUPPORT. The register map range by range, and the step on each kind of host step. -/

namespace Sys2Proof.Machine

theorem regAt_kin (j : Fin 10) : regAt j = some (.kin j) := by
  revert j; decide

theorem regAt_din (j : Fin 8) : regAt (0x10 + j) = some (.din j) := by
  revert j; decide

theorem regAt_dout (j : Fin 8) : regAt (0x18 + j) = some (.dout j) := by
  revert j; decide

theorem regAt_cmd : regAt 0x20 = some .cmd := rfl

theorem regAt_status : regAt 0x21 = some .status := rfl

theorem regAt_ur : regAt 0x22 = some .ur := rfl

/-- The unmapped numbers of R52. -/
theorem regAt_unmapped {number : Nat} (h : (0x0A ≤ number ∧ number ≤ 0x0F) ∨ 0x23 ≤ number) :
    regAt number = none := by
  have h0 : ¬ number ≤ 0x09 := by omega
  have h1 : ¬ (0x10 ≤ number ∧ number ≤ 0x17) := by omega
  have h2 : ¬ (0x18 ≤ number ∧ number ≤ 0x1F) := by omega
  have h3 : number ≠ 0x20 := by omega
  have h4 : number ≠ 0x21 := by omega
  have h5 : number ≠ 0x22 := by omega
  simp only [regAt, dif_neg h0, dif_neg h1, dif_neg h2, if_neg h3, if_neg h4, if_neg h5]

theorem step_idle {m : State} (h : m.pending = []) : step m = .next m := by
  simp only [step, serveHost, h]

theorem step_cons {m : State} {h : HostStep} {rest : List HostStep} (hp : m.pending = h :: rest) :
    step m = takeHostStep h (m.setPending rest) := by
  simp only [step, serveHost, hp]

/-- Everything a step can do: idle, or take the oldest host step. -/
theorem step_cases (m : State) :
    (m.pending = [] ∧ step m = .next m) ∨
    (∃ h rest, m.pending = h :: rest ∧ step m = takeHostStep h (m.setPending rest)) := by
  cases hp : m.pending with
  | nil => exact .inl ⟨rfl, step_idle hp⟩
  | cons h rest => exact .inr ⟨h, rest, rfl, step_cons hp⟩

/-- A word that decodes to a command runs as that command (R173). -/
theorem executeWord_command {c : Word} {i : Instr} (h : decode c = .command i) (m : State) :
    executeWord c m = exec i m := by
  simp only [executeWord, h]

/-- An illegal word raises IllegalCommand after the common step (R173, R205). -/
theorem executeWord_illegal {c : Word} {why : IllegalWord} (h : decode c = .illegal why) (m : State) :
    executeWord c m = .next ((takeWord m).setErr .illegalCommand) := by
  simp only [executeWord, h]
  rfl

/-- A host read that answers a next state adds one answer and changes nothing else (R53). -/
theorem hostRead_frame {number : Nat} {m t : State} (h : hostRead number m = .next t) :
    ∃ v, t = m.pushAnswer v := by
  unfold hostRead at h
  split at h <;> first | (cases h; exact ⟨_, rfl⟩) | cases h

/-- Everything a host write that answers a next state can do (R54). -/
theorem hostWrite_cases {number : Nat} {v : BusValue} {m t : State} (h : hostWrite number v m = .next t) :
    (∃ b, t = m.setKin b) ∨ (∃ b, t = m.setDin b) ∨ (∃ u, t = m.setUr u) ∨
    (∃ c, regAt number = some .cmd ∧ v = .word c ∧ executeWord c m = .next t) := by
  unfold hostWrite at h
  split at h
  · cases h
  · cases h; exact .inl ⟨_, rfl⟩
  · cases h; exact .inr (.inl ⟨_, rfl⟩)
  · cases h; exact .inr (.inr (.inl ⟨_, rfl⟩))
  · next c hr => exact .inr (.inr (.inr ⟨c, hr, rfl, h⟩))
  all_goals cases h

end Sys2Proof.Machine
end

