-- ==== Sys2Proof/Laws/Work.lean ====
section
/-! SUPPORT. The work of a command by how it ends. -/

namespace Sys2Proof.Machine

theorem isRefused_of_noError {i : Instr} {m t : State} (h : exec i m = .next t) (ok : t.err = .noError) :
    isRefused i m = false := by
  simp [isRefused, h, ok]

theorem workAt_of_completes {i : Instr} {m t : State} (h : exec i m = .next t) (ok : t.err = .noError) :
    workAt i m = work i false (m.phase = .initialized) := by
  rw [workAt, isRefused_of_noError h ok]

theorem workAt_of_refused {i : Instr} {m : State} (h : isRefused i m = true) : workAt i m = {} := by
  rw [workAt, h]
  rfl

end Sys2Proof.Machine
end

