-- ==== Sys2Proof/Tests/Slice0.lean ====
section
/-! SUPPORT. Tests of the model against spec/95_test_vectors.md, and one witness or more for every statement that
has hypotheses: concrete states and operands that meet all of them together. Every expected value is the
spec's, never the model's own answer. -/

namespace Sys2Proof.Tests

open Sys2Proof Sys2Proof.Machine

/-! ## Small states -/

/-- What a test reads of an answer; none where the step stopped. -/
def see {α : Type} (f : State → α) : Answer → Option α
  | .next t => some (f t)
  | .fault _ => none
  | .refused _ => none

/-- Whether an answer is that fault. -/
def stopsWith (r : Fault) : Answer → Bool
  | .fault r' => r' = r
  | .next _ => false
  | .refused _ => false

/-- Whether an answer is that refusal. -/
def refusesWith (r : Refusal) : Answer → Bool
  | .refused r' => r' = r
  | .next _ => false
  | .fault _ => false

def keyBytes : Vector Byte 10 := #v[0x00, 0x01, 0x02, 0x03, 0x04, 0x05, 0x06, 0x07, 0x08, 0x09]
def blockBytes : Vector Byte 8 := #v[0x01, 0x23, 0x45, 0x67, 0x89, 0xAB, 0xCD, 0xEF]

/-- The buffers written, no key bound. -/
def loaded : State := { State.reset with kin := keyBytes, din := blockBytes }

/-- The key bound, no schedule yet. -/
def bound : State := { loaded with key := 0x00010203040506070809#80, phase := .initialized }

/-- The schedule generated. -/
def ready : State :=
  { bound with kr := finalKr bound.key, rk := keyschedule bound.key, phase := .ready }

/-- Just after an ENC in byte order big (the values of spec/95 section 7). -/
def complete : State :=
  { ready with
    s := 0xF7F0BFAFD3CEB06C#64
    dout := #v[0xF7, 0xF0, 0xBF, 0xAF, 0xD3, 0xCE, 0xB0, 0x6C]
    phase := .complete }

/-- A state with the value of UR. -/
def rotating (v : KeyReg) : State := { loaded with ur := v }

/-- A state with that host step as its only pending one. -/
def asked (h : HostStep) (m : State) : State := { m with pending := [h] }

/-! ## WellFormed refuses what no word can carry (R81, R88) -/

theorem test_wf_ldkey_length : ¬ (Instr.ldkey .big 256).WellFormed := by decide
theorem test_wf_enc_length : ¬ (Instr.enc .big 256).WellFormed := by decide
theorem test_wf_ldblk_length : ¬ (Instr.ldblk .little 256).WellFormed := by decide
theorem test_wf_addrk_index : ¬ (Instr.addrk 256).WellFormed := by decide
theorem test_wf_rdrk_index : ¬ (Instr.rdrk .big 256).WellFormed := by decide
theorem test_wf_rol_amount : ¬ (Instr.rol 256 80).WellFormed := by decide
theorem test_wf_rol_width : ¬ (Instr.rol 1 256).WellFormed := by decide
theorem test_wf_ror_amount : ¬ (Instr.ror 256 80).WellFormed := by decide
theorem test_wf_ror_width : ¬ (Instr.ror 1 256).WellFormed := by decide

/-! ## Decoding: OP_ZZZE_AAAAAAAA_WWWWWWWW_NNNNNNNN (R81, R82, R90; spec/95 section 8) -/

theorem test_decode_nop : decode 0b0000_0000_00000000_00000000_00000000#32 = .command .nop := by decide
theorem test_decode_ldkey :
    decode 0b0001_0001_00000000_00000000_00001010#32 = .command (.ldkey .little 10) := by decide
theorem test_decode_ksched :
    decode 0b0010_0000_00000000_00000000_00000000#32 = .command .ksched := by decide
theorem test_decode_enc :
    decode 0b0011_0001_00000000_00000000_00001000#32 = .command (.enc .little 8) := by decide
theorem test_decode_ldblk :
    decode 0b0100_0000_00000000_00000000_00000111#32 = .command (.ldblk .big 7) := by decide
theorem test_decode_stblk :
    decode 0b0101_0001_00000000_00000000_00000000#32 = .command (.stblk .little) := by decide
theorem test_decode_addrk :
    decode 0b0110_0000_00000000_00000000_00100000#32 = .command (.addrk 32) := by decide
theorem test_decode_sboxl :
    decode 0b0111_0000_00000000_00000000_00000000#32 = .command .sboxl := by decide
theorem test_decode_perml :
    decode 0b1000_0000_00000000_00000000_00000000#32 = .command .perml := by decide
theorem test_decode_rdrk :
    decode 0b1001_0001_00000000_00000000_00100000#32 = .command (.rdrk .little 32) := by decide
theorem test_decode_rol :
    decode 0b1010_0000_00111101_01010000_00000000#32 = .command (.rol 61 80) := by decide
theorem test_decode_ror :
    decode 0b1011_0000_00010011_01010000_00000000#32 = .command (.ror 19 80) := by decide

/-- The illegal words of spec/95 section 8 with a defined opcode (R86). -/
theorem test_decode_reserved_fields :
    decode 0x00000001#32 = .illegal .reservedField ∧ decode 0x02000000#32 = .illegal .reservedField ∧
    decode 0x0E000000#32 = .illegal .reservedField ∧ decode 0x1200000A#32 = .illegal .reservedField ∧
    decode 0x1000010A#32 = .illegal .reservedField ∧ decode 0x10000100#32 = .illegal .reservedField ∧
    decode 0x21000000#32 = .illegal .reservedField ∧ decode 0x38000008#32 = .illegal .reservedField ∧
    decode 0x50000001#32 = .illegal .reservedField ∧ decode 0x61000020#32 = .illegal .reservedField ∧
    decode 0x70000001#32 = .illegal .reservedField ∧ decode 0x88000000#32 = .illegal .reservedField ∧
    decode 0x90010001#32 = .illegal .reservedField ∧ decode 0xA1000800#32 = .illegal .reservedField ∧
    decode 0xA0000801#32 = .illegal .reservedField ∧ decode 0xBE135000#32 = .illegal .reservedField := by
  and_intros <;> decide

/-- The reserved opcodes of spec/95 section 8 (R85). -/
theorem test_decode_reserved_opcodes :
    decode 0xC0000000#32 = .illegal .reservedOpcode ∧ decode 0xD0000000#32 = .illegal .reservedOpcode ∧
    decode 0xE0000000#32 = .illegal .reservedOpcode ∧ decode 0xF0000000#32 = .illegal .reservedOpcode ∧
    decode 0xFFFFFFFF#32 = .illegal .reservedOpcode := by
  and_intros <;> decide

/-- R90's words of the encoder. -/
theorem test_encode_examples :
    encode (.ldkey .big 10) = 0x1000000A#32 ∧ encode (.enc .little 8) = 0x31000008#32 ∧
    encode (.ror 19 80) = 0xB0135000#32 ∧ encode (.rol 61 80) = 0xA03D5000#32 ∧
    encode (.addrk 32) = 0x60000020#32 ∧ encode (.rdrk .big 1) = 0x90000001#32 := by decide

/-! ## The functions (spec/95 sections 2 to 7) -/

theorem test_rol_wraps : rol 8 (by decide) 0x81#8 1 = 0x03#8 ∧
    rol 12 (by decide) 0xABC#12 4 = 0xBCA#12 ∧
    rol 80 (by decide) 0x0123456789ABCDEF0123#80 255 = 0xA2B3C4D5E6F780918091#80 := by decide

theorem test_ror_wraps : ror 8 (by decide) 0x81#8 1 = 0xC0#8 ∧
    ror 64 (by decide) 0x0123456789ABCDEF#64 16 = 0xCDEF0123456789AB#64 ∧
    ror 80 (by decide) 0x00010203040506070809#80 19 = 0xE101200020406080A0C0#80 := by decide

theorem test_b2i_orders : b2i 80 .big keyBytes = 0x00010203040506070809#80 ∧
    b2i 80 .little keyBytes = 0x09080706050403020100#80 ∧
    b2i 64 .little blockBytes = 0xEFCDAB8967452301#64 := by decide

theorem test_i2b_orders :
    i2b .big 0x5579C1387B228445#64 8 = #v[0x55, 0x79, 0xC1, 0x38, 0x7B, 0x22, 0x84, 0x45] ∧
    i2b .little 0x5000180000000001#64 8 = #v[0x01, 0x00, 0x00, 0x00, 0x00, 0x18, 0x00, 0x50] := by decide

theorem test_ksupdate_steps :
    ksupdate 0x00010203040506070809#80 1 (by decide) = 0x110120002040608020C0#80 ∧
    ksupdate 0x8BA27A0EB8783AC96D59#80 31 (by decide) = 0x6DAB31744F41D7008759#80 ∧
    ksupdate 0x2FFFFFFFFFFFFFFF7FFF#80 2 (by decide) = 0x1FFFE5FFFFFFFFFEFFFF#80 := by decide +kernel

theorem test_keyschedule_ends :
    roundKeyAt (keyschedule 0x00010203040506070809#80) 32 (by decide) = 0x3299F19C4F79A721#64 ∧
    finalKr 0x00010203040506070809#80 = 0x3299F19C4F79A721DA0D#80 := by decide +kernel

theorem test_sboxlayer_values : sboxlayer 0x0123456789ABCDEF#64 = 0xC56B90AD3EF84712#64 ∧
    sboxlayer 0x8000000000000000#64 = 0x3CCCCCCCCCCCCCCC#64 := by decide +kernel

theorem test_player_values : player 0x0123456789ABCDEF#64 = 0x00FF0F0F33335555#64 ∧
    player 0x0000000000000002#64 = 0x0000000000010000#64 := by decide +kernel

/-- The source's vectors 1 and 4 (spec/95 section 1). -/
theorem test_source_vectors :
    encryptInt (keyschedule 0x00000000000000000000#80) 0x0000000000000000#64 = 0x5579C1387B228445#64 ∧
    encryptInt (keyschedule 0xFFFFFFFFFFFFFFFFFFFF#80) 0xFFFFFFFFFFFFFFFF#64 = 0x3333DCD3213210D2#64 := by
  decide +kernel

/-! ## The commands (spec/95 sections 2 to 4, 6, 7, 9) -/

/-- NOP after an error keeps ERR, and after ENC keeps COMPLETE (program 3). -/
theorem test_nop_keeps_status : see statusByte (exec .nop complete) = some 0x03#8 := by decide +kernel

theorem test_ldkey_orders : see (·.key) (exec (.ldkey .big 10) loaded) = some 0x00010203040506070809#80 ∧
    see (·.key) (exec (.ldkey .little 10) loaded) = some 0x09080706050403020100#80 ∧
    see statusByte (exec (.ldkey .big 10) loaded) = some 0x01#8 := by decide +kernel

/-- A wrong length keeps the old key and the schedule: READY, not INITIALIZED. -/
theorem test_ldkey_wrong_length : see statusByte (exec (.ldkey .big 9) complete) = some 0x12#8 ∧
    see (·.key) (exec (.ldkey .big 16) complete) = some 0x00010203040506070809#80 := by decide +kernel

theorem test_ksched_generates : see (·.kr) (exec .ksched bound) = some 0x3299F19C4F79A721DA0D#80 ∧
    see statusByte (exec .ksched bound) = some 0x02#8 := by decide +kernel

theorem test_ksched_no_key : see statusByte (exec .ksched loaded) = some 0x40#8 := by decide +kernel

/-- ENC right after LDKEY generates the schedule first; big in, big out (spec/95 section 7). -/
theorem test_enc_big : see (fun t => (t.s, t.dout, t.kr, statusByte t)) (exec (.enc .big 8) bound) =
    some (0xF7F0BFAFD3CEB06C#64, #v[0xF7, 0xF0, 0xBF, 0xAF, 0xD3, 0xCE, 0xB0, 0x6C],
      0x3299F19C4F79A721DA0D#80, 0x03#8) := by decide +kernel

/-- A refused ENC generates nothing; NoKey outranks the length (spec/95 sections 9, 10). -/
theorem test_enc_refused : see statusByte (exec (.enc .big 4) bound) = some 0x21#8 ∧
    see statusByte (exec (.enc .big 4) loaded) = some 0x40#8 := by decide +kernel

theorem test_ldblk_orders : see (·.s) (exec (.ldblk .big 8) loaded) = some 0x0123456789ABCDEF#64 ∧
    see (·.s) (exec (.ldblk .little 8) loaded) = some 0xEFCDAB8967452301#64 := by decide +kernel

theorem test_ldblk_wrong_length : see statusByte (exec (.ldblk .big 7) complete) = some 0x22#8 ∧
    see (·.s) (exec (.ldblk .big 7) complete) = some 0xF7F0BFAFD3CEB06C#64 := by decide +kernel

theorem test_stblk_little :
    see (·.dout) (exec (.stblk .little) { loaded with s := 0x5579C1387B228445#64 }) =
      some #v[0x45, 0x84, 0x22, 0x7B, 0x38, 0xC1, 0x79, 0x55] ∧
    see statusByte (exec (.stblk .big) complete) = some 0x02#8 := by decide +kernel

theorem test_addrk_last : see (fun t => (t.s, statusByte t))
    (exec (.addrk 32) { bound with s := 0x0123456789ABCDEF#64 }) =
      some (0x33BAB4FBC6D26ACE#64, 0x02#8) := by decide +kernel

/-- An index out of range generates nothing; NoKey outranks it (spec/95 sections 6, 9). -/
theorem test_addrk_refused : see statusByte (exec (.addrk 0) bound) = some 0x61#8 ∧
    see statusByte (exec (.addrk 0) loaded) = some 0x40#8 := by decide +kernel

theorem test_sboxl_value : see (fun t => (t.s, statusByte t))
    (exec .sboxl { loaded with s := 0x0123456789ABCDEF#64 }) = some (0xC56B90AD3EF84712#64, 0x00#8) := by
  decide +kernel

theorem test_perml_value : see (fun t => (t.s, statusByte t))
    (exec .perml { loaded with s := 0x0123456789ABCDEF#64 }) = some (0x00FF0F0F33335555#64, 0x00#8) := by
  decide +kernel

theorem test_rdrk_last : see (fun t => (t.dout, statusByte t)) (exec (.rdrk .little 32) bound) =
    some (#v[0x21, 0xA7, 0x79, 0x4F, 0x9C, 0xF1, 0x99, 0x32], 0x02#8) := by decide +kernel

theorem test_rdrk_refused : see statusByte (exec (.rdrk .big 33) bound) = some 0x61#8 ∧
    see statusByte (exec (.rdrk .big 0) loaded) = some 0x40#8 := by decide +kernel

theorem test_rol_command : see (·.ur) (exec (.rol 255 80) (rotating 0xE101200020406080A0C0#80)) =
      some 0x90001020304050607080#80 ∧
    see (·.ur) (exec (.rol 9 8) (rotating 0xC0#80)) = some 0x81#80 := by decide +kernel

theorem test_rol_refused : see (fun t => (t.ur, statusByte t)) (exec (.rol 3 1) (rotating 2#80)) =
      some (2#80, 0x60#8) ∧
    see statusByte (exec (.rol 5 0) (rotating 0#80)) = some 0x60#8 ∧
    see statusByte (exec (.rol 255 255) (rotating 0#80)) = some 0x60#8 := by decide +kernel

/-- R105: ror(80, 1, 19) = 2^61. R109's example prints the digits of 2^77 for it (log 10). -/
theorem test_ror_command : see (·.ur) (exec (.ror 19 80) (rotating 1#80)) =
      some (BitVec.ofNat 80 (2 ^ 61)) ∧
    see (·.ur) (exec (.ror 2 8) (rotating 3#80)) = some 0xC0#80 := by decide +kernel

theorem test_ror_refused : see statusByte (exec (.ror 0 7) (rotating 0x81#80)) = some 0x60#8 ∧
    see statusByte (exec (.ror 0 8) (rotating 0x81#80)) = some 0x00#8 ∧
    see statusByte (exec (.ror 5 81) (rotating 0x81#80)) = some 0x60#8 := by decide +kernel

/-! ## The host port and the step -/

/-- An illegal word in COMPLETE: IllegalCommand, READY (program 3, word 0x21000000). -/
theorem test_illegal_word : see (fun t => (t.s, statusByte t))
    (step (asked (.write 0x20 (.word 0x21000000#32)) complete)) =
      some (0xF7F0BFAFD3CEB06C#64, 0x52#8) := by decide +kernel

/-- The last byte of DOUT stands at number 0x1F, and STATUS at 0x21 (R52). -/
theorem test_host_reads : see (·.answers) (step (asked (.read 0x1F) complete)) = some [.byte 0x6C#8] ∧
    see (·.answers) (step (asked (.read 0x21) complete)) = some [.byte 0x03#8] := by decide +kernel

/-- A write of KIN[0] after LDKEY leaves KEY alone (R34). -/
theorem test_host_write_kin : see (fun t => (t.kin[0], t.key))
    (step (asked (.write 0x00 (.byte 0xFF#8)) bound)) = some (0xFF#8, 0x00010203040506070809#80) := by
  decide +kernel

theorem test_host_stops : stopsWith (.unmappedRead 0x0A) (step (asked (.read 0x0A) ready)) = true ∧
    refusesWith (.readOfWriteOnly 0x20) (step (asked (.read 0x20) ready)) = true ∧
    refusesWith (.writeOfReadOnly 0x21) (step (asked (.write 0x21 (.byte 0#8)) ready)) = true ∧
    refusesWith (.wrongWidth 0x22) (step (asked (.write 0x22 (.byte 0#8)) ready)) = true := by
  decide +kernel

theorem test_reset_step : see statusByte (step (asked .reset complete)) = some 0x00#8 := by decide +kernel

theorem test_step_runs_placed_word :
    see statusByte (step (State.reset.withFetchWord 32 0x1000000A)) = some 0x01#8 := by decide +kernel

/-! ## Witnesses: the hypotheses of each statement, met together

A statement with no witness here has no hypothesis. -/

/-- A round key read from a literal schedule needs only a number in range. -/
abbrev inRange (n : Nat) : Prop := 1 ≤ n ∧ n ≤ 32

theorem bound_valid : ScheduleValid bound := fun h => by cases h <;> contradiction

theorem ready_valid : ScheduleValid ready := fun _ => ⟨rfl, rfl⟩

theorem complete_valid : ScheduleValid complete := fun _ => ⟨rfl, rfl⟩

theorem witness_DecodeOfEncode :
    (Instr.ldkey .little 255).WellFormed ∧ (Instr.addrk 0).WellFormed ∧ (Instr.rol 255 255).WellFormed := by
  decide

theorem witness_EncodeOfDecode : decode 0xB0FFFF00#32 = .command (.ror 255 255) := by decide

/-- Each clause of the opcode map at an edge of its operands; 0x00000001 meets the last clause. -/
theorem witness_DecodeFollowsOpcodeMap :
    0x00000000#32 &&& 0xFFFFFFFF#32 = 0x00000000#32 ∧ 0x110000FF#32 &&& 0xFEFFFF00#32 = 0x10000000#32 ∧
    0x20000000#32 &&& 0xFFFFFFFF#32 = 0x20000000#32 ∧ 0x30000000#32 &&& 0xFEFFFF00#32 = 0x30000000#32 ∧
    0x410000FF#32 &&& 0xFEFFFF00#32 = 0x40000000#32 ∧ 0x51000000#32 &&& 0xFEFFFFFF#32 = 0x50000000#32 ∧
    0x600000FF#32 &&& 0xFFFFFF00#32 = 0x60000000#32 ∧ 0x70000000#32 &&& 0xFFFFFFFF#32 = 0x70000000#32 ∧
    0x80000000#32 &&& 0xFFFFFFFF#32 = 0x80000000#32 ∧ 0x910000FF#32 &&& 0xFEFFFF00#32 = 0x90000000#32 ∧
    0xA0FFFF00#32 &&& 0xFF0000FF#32 = 0xA0000000#32 ∧ 0xB0000000#32 &&& 0xFF0000FF#32 = 0xB0000000#32 ∧
    ∀ r ∈ opcodeMap, 0x00000001#32 &&& r.mask ≠ r.pattern := by decide

/-- One word per disjunct, at an edge of the field. -/
theorem witness_ReservedBitsAreIllegal :
    0xC#4 ≤ (0xC0000000#32).extractLsb' 28 4 ∧ 0xC#4 ≤ (0xFFFFFFFF#32).extractLsb' 28 4 ∧
    (0x02000000#32).extractLsb' 25 3 ≠ 0#3 ∧ (0xB8000000#32).extractLsb' 25 3 ≠ 0#3 ∧
    ((0x21000000#32).extractLsb' 28 4 = 0x2#4 ∧ (0x21000000#32).extractLsb' 0 25 ≠ 0#25) ∧
    ((0x90800000#32).extractLsb' 28 4 = 0x9#4 ∧ (0x90800000#32).extractLsb' 8 16 ≠ 0#16) ∧
    ((0x50000001#32).extractLsb' 28 4 = 0x5#4 ∧ (0x50000001#32).extractLsb' 0 24 ≠ 0#24) ∧
    ((0x60000100#32).extractLsb' 28 4 = 0x6#4 ∧ (0x60000100#32).extractLsb' 8 17 ≠ 0#17) ∧
    ((0xA1000000#32).extractLsb' 28 4 = 0xA#4 ∧ (0xA1000000#32).extractLsb' 24 1 ≠ 0#1) ∧
    ((0xB0000001#32).extractLsb' 28 4 = 0xB#4 ∧ (0xB0000001#32).extractLsb' 0 8 ≠ 0#8) := by decide

theorem witness_StepRunsTheWrittenCommand :
    (asked (.write 0x20 (.word 0x31000008#32)) ready).pending = [.write 0x20 (.word 0x31000008#32)] ∧
    decode 0x31000008#32 = .command (.enc .little 8) ∧
    (asked (.write 0x20 (.word 0xFFFFFFFF#32)) complete).pending = [.write 0x20 (.word 0xFFFFFFFF#32)] ∧
    decode 0xFFFFFFFF#32 = .illegal .reservedOpcode := ⟨rfl, by decide, rfl, by decide⟩

theorem witness_IllegalWordRaisesIllegalCommand :
    decode 0xC0000000#32 = .illegal .reservedOpcode ∧ decode 0x00000001#32 = .illegal .reservedField := by
  decide

theorem witness_IdleEngineKeepsItsState : complete.pending = [] := rfl

/-- Every clause at both ends of its range, by R52's numbers. -/
theorem witness_HostReadAnswersTheRegister :
    (asked (.read 0x09) ready).pending = [.read 0x09] ∧ 0x00 = ((0 : Fin 10) : Nat) ∧
    0x09 = ((9 : Fin 10) : Nat) ∧ 0x10 = 0x10 + ((0 : Fin 8) : Nat) ∧ 0x17 = 0x10 + ((7 : Fin 8) : Nat) ∧
    0x18 = 0x18 + ((0 : Fin 8) : Nat) ∧ 0x1F = 0x18 + ((7 : Fin 8) : Nat) := by decide

theorem witness_HostWriteReplacesOneRegister :
    (asked (.write ((9 : Fin 10) : Nat) (.byte 0xA5#8)) ready).pending = [.write 0x09 (.byte 0xA5#8)] ∧
    (asked (.write (0x10 + ((7 : Fin 8) : Nat)) (.byte 0xA5#8)) ready).pending =
      [.write 0x17 (.byte 0xA5#8)] ∧
    (asked (.write 0x22 (.wide 1#80)) ready).pending = [.write 0x22 (.wide 1#80)] := by decide

/-- The numbers where the clauses meet; no number is under two clauses. -/
theorem witness_UndefinedAccessesStop :
    (asked (.read 0x0A) ready).pending = [.read 0x0A] ∧
    (asked (.write 0x1F (.byte 0#8)) ready).pending = [.write 0x1F (.byte 0#8)] ∧
    (∀ n ∈ [0x0A, 0x0F, 0x23], (0x0A ≤ n ∧ n ≤ 0x0F) ∨ 0x23 ≤ n) ∧
    (∀ n ∈ [0x18, 0x1F, 0x21], (0x18 ≤ n ∧ n ≤ 0x1F) ∨ n = 0x21) ∧
    (∀ n < 0x40, ¬ (((0x0A ≤ n ∧ n ≤ 0x0F) ∨ 0x23 ≤ n) ∧ ((0x18 ≤ n ∧ n ≤ 0x1F) ∨ n = 0x20 ∨ n = 0x21))) := by
  decide

/-- A step that completes and one that does not. -/
theorem witness_ExactlyAdmittedStepsComplete :
    (asked (.read 0x1F) ready).pending = .read 0x1F :: [] ∧ Admitted (.read 0x1F) ∧
    (asked (.read 0x20) ready).pending = .read 0x20 :: [] ∧ ¬ Admitted (.read 0x20) := by
  refine ⟨rfl, ?_, rfl, ?_⟩ <;> simp [Admitted]

theorem witness_RegisterMapHas29Numbers : 0x23 ≤ 0x23 := by decide

theorem witness_HostAccessLeavesTheEngineAlone :
    (asked (.write 0x22 (.wide 1#80)) complete).pending = .write 0x22 (.wide 1#80) :: [] ∧
    (∀ v, HostStep.write 0x22 (.wide 1#80) ≠ .write 0x20 v) ∧ HostStep.write 0x22 (.wide 1#80) ≠ .reset ∧
    ∃ t, step (asked (.write 0x22 (.wide 1#80)) complete) = .next t :=
  ⟨rfl, by intro v; simp, by decide, _, rfl⟩

theorem witness_OnlyResetLeadsToEmpty :
    (asked .reset complete).pending = .reset :: [] ∧
    ∃ t, step (asked .reset complete) = .next t ∧ (asked .reset complete).phase ≠ .empty ∧
      t.phase = .empty :=
  ⟨rfl, _, rfl, by decide, rfl⟩

/-- Widths 1 and 80, a bit at the top, and an amount that is a multiple of the width. -/
theorem witness_RotateLeftMovesBits : 0 < 1 ∧ 0 < 80 ∧ 79 < 80 ∧ 160 % 80 = 0 := by decide

theorem witness_RotateRightMovesBits : 0 < 1 ∧ 0 < 80 ∧ 79 < 80 ∧ 255 % 1 = 0 := by decide

theorem witness_RotationLaws : 0 < 1 ∧ 0 < 80 := by decide

theorem witness_SboxlayerActsOnNibbles : 0 < 16 ∧ 15 < 16 := by decide

theorem witness_PboxIsAPermutation : (15 < 16 ∧ 3 < 4) ∧ 63 < 64 := by decide

theorem witness_BoxesHaveTheInferredFixedPoints : 62 < 63 ∧ 63 < 64 := by decide

theorem witness_PlayerMovesBits : 15 < 16 ∧ 3 < 4 := by decide

theorem witness_LayerCommandsComeRound : 0 < 83 ∧ 83 < 84 := by decide

theorem witness_KsupdateBits : (1 ≤ 1 ∧ 1 ≤ 31) ∧ (1 ≤ 31 ∧ 31 ≤ 31) ∧ 75 < 76 ∧ 63 < 64 := by decide

theorem witness_UpdateAndEncryptionAreBijective : (1 ≤ 1 ∧ 1 ≤ 31) ∧ (1 ≤ 31 ∧ 31 ≤ 31) := by decide

theorem witness_KeyscheduleFollowsTheChain :
    (1 ≤ 1 ∧ 1 ≤ 31) ∧ (1 ≤ 31 ∧ 31 ≤ 31) ∧ bound.key = 0x00010203040506070809#80 := by decide

theorem witness_EncryptIntFollowsTheRounds : (1 ≤ 1 ∧ 1 ≤ 31) ∧ (1 ≤ 31 ∧ 31 ≤ 31) := by decide

/-- Both orders occur, so each clause of a command with a byte order is met; every length is under exactly
one outcome. -/
theorem witness_LdkeyBindsTheKey : ByteOrder.big = .big ∧ ByteOrder.little = .little ∧
    255 < 256 ∧ 9 ≠ 10 ∧ 10 = 10 ∧ 11 ≠ 10 := by decide

theorem witness_KschedGeneratesTheSchedule :
    bound.phase ≠ .empty ∧ complete.phase ≠ .empty ∧ loaded.phase = .empty := by decide

/-- A fresh key and a finished block both complete; the refusals are met in EMPTY and with lengths 7, 9. -/
theorem witness_EncEncryptsTheBlock :
    (bound.phase ≠ .empty ∧ ScheduleValid bound ∧ 8 = 8) ∧
    (complete.phase ≠ .empty ∧ ScheduleValid complete) ∧
    loaded.phase = .empty ∧ (complete.phase ≠ .empty ∧ 7 ≠ 8 ∧ 9 ≠ 8) ∧ 255 < 256 :=
  ⟨⟨by decide, bound_valid, rfl⟩, ⟨by decide, complete_valid⟩, rfl, by decide, by decide⟩

theorem witness_LdblkLoadsTheBlock : ByteOrder.big = .big ∧ ByteOrder.little = .little ∧
    255 < 256 ∧ 7 ≠ 8 ∧ 8 = 8 ∧ 9 ≠ 8 := by decide

theorem witness_StblkStoresTheState : ByteOrder.big = .big ∧ ByteOrder.little = .little := by decide

theorem witness_SboxlSubstitutesNibbles : 0 < 16 ∧ 15 < 16 := by decide

theorem witness_PermlMovesBits : 15 < 16 ∧ 3 < 4 := by decide

/-- Both ends of the index, before and after generation; the refusals at 0, 33 and in EMPTY. -/
theorem witness_AddrkXorsTheRoundKey :
    inRange 1 ∧ inRange 32 ∧ (bound.phase ≠ .empty ∧ ScheduleValid bound) ∧
    (ready.phase ≠ .empty ∧ ScheduleValid ready) ∧ loaded.phase = .empty ∧
    (bound.phase ≠ .empty ∧ (0 = 0 ∨ 32 < 0) ∧ (33 = 0 ∨ 32 < 33)) ∧ ¬ inRange 0 ∧ ¬ inRange 33 :=
  ⟨by decide, by decide, ⟨by decide, bound_valid⟩, ⟨by decide, ready_valid⟩, rfl, by decide, by decide,
    by decide⟩

theorem witness_RdrkCopiesTheRoundKey :
    inRange 1 ∧ inRange 32 ∧ (bound.phase ≠ .empty ∧ ScheduleValid bound) ∧
    (complete.phase ≠ .empty ∧ ScheduleValid complete) ∧ loaded.phase = .empty ∧
    (bound.phase ≠ .empty ∧ (0 = 0 ∨ 32 < 0) ∧ (33 = 0 ∨ 32 < 33)) ∧
    ByteOrder.big = .big ∧ ByteOrder.little = .little :=
  ⟨by decide, by decide, ⟨by decide, bound_valid⟩, ⟨by decide, complete_valid⟩, rfl, by decide, rfl, rfl⟩

/-- Widths 1 and 80 with the widest value each, and each operand the command refuses. -/
theorem witness_RolRotatesUr :
    (1 ≤ 1 ∧ 1 ≤ 80 ∧ (rotating 1#80).ur.toNat < 2 ^ 1) ∧
    (1 ≤ 80 ∧ 80 ≤ 80 ∧ (rotating 0xFFFFFFFFFFFFFFFFFFFF#80).ur.toNat < 2 ^ 80) ∧ 7 < 8 ∧ 8 ≤ 79 ∧
    80 < 81 ∧ 2 ^ 1 ≤ (rotating 2#80).ur.toNat ∧ 255 < 256 := by decide

theorem witness_RorRotatesUr :
    (1 ≤ 1 ∧ 1 ≤ 80 ∧ (rotating 0#80).ur.toNat < 2 ^ 1) ∧
    (1 ≤ 8 ∧ 8 ≤ 80 ∧ (rotating 0xFF#80).ur.toNat < 2 ^ 8) ∧ 7 < 8 ∧ 8 ≤ 79 ∧
    80 < 81 ∧ 2 ^ 7 ≤ (rotating 0x81#80).ur.toNat ∧ 255 < 256 := by decide

/-- A command of each error and one of none. -/
theorem witness_ErrorsRaisedExactlyWhen :
    Instr.sboxl ≠ .nop ∧ see (·.err) (exec (.ldkey .big 11) ready) = some .invalidKeySize ∧
    see (·.err) (exec (.ldblk .big 255) loaded) = some .invalidBlockSize ∧
    see (·.err) (exec (.addrk 1) loaded) = some .noKey ∧
    see (·.err) (exec (.rdrk .little 33) bound) = some .invalidOperand ∧
    see (·.err) (exec .sboxl complete) = some .noError := by decide +kernel

theorem witness_PhaseFollowsTheTable : decode 0x21000000#32 = .illegal .reservedField ∧
    loaded.phase = .empty ∧ needsKey .ksched = true ∧ needsKey (.enc .big 4) = true ∧
    needsKey (.addrk 0) = true ∧ needsKey (.rdrk .big 33) = true := by decide

theorem witness_CompleteExactlyAfterEnc :
    decode 0x30000008#32 ≠ .command .nop ∧ (∃ t, executeWord 0x30000008#32 bound = .next t) ∧
    decode 0x21000000#32 ≠ .command .nop ∧ (∃ t, executeWord 0x21000000#32 complete = .next t) ∧
    complete.phase = .complete :=
  ⟨by decide, exec_completes (.enc .big 8) bound, by decide, ⟨_, rfl⟩, rfl⟩

theorem witness_RegisterUsePerCommand :
    (∃ t, exec (.rdrk .big 2) bound = .next t) ∧
    see (fun t => decide (t.dout ≠ bound.dout ∧ t.kr ≠ bound.kr)) (exec (.rdrk .big 2) bound) = some true :=
  ⟨exec_completes _ _, by decide +kernel⟩

/-- An LDKEY that changes KEY, and a reset that does, whatever the free value is. -/
theorem witness_KeyChangesOnlyByLdkeyOrReset :
    (∃ t, step (asked (.write 0x20 (.word 0x1000000A#32)) loaded) = .next t ∧
      t.key ≠ (asked (.write 0x20 (.word 0x1000000A#32)) loaded).key) ∧
    (∃ t, step (asked .reset { loaded with key := Config.resetKey 0 + 1#80 }) = .next t ∧
      t.key ≠ (asked .reset { loaded with key := Config.resetKey 0 + 1#80 }).key) := by
  refine ⟨⟨_, rfl, ?_⟩, _, rfl, ?_⟩
  · decide +kernel
  · show Config.resetKey 0 ≠ Config.resetKey 0 + 1#80
    intro h
    have h1 : Config.resetKey 0 + 0#80 = Config.resetKey 0 + 1#80 := by rw [BitVec.add_zero]; exact h
    exact absurd (BitVec.add_right_inj _ |>.mp h1) (by decide)

/-- Each phase and operand range a clause names, a refused command, and two commands alike in all that
decides their work. -/
theorem witness_WorkFollowsTheTable :
    bound.phase = .initialized ∧ ready.phase = .ready ∧ complete.phase = .complete ∧
    inRange 1 ∧ inRange 32 ∧
    (1 ≤ 80 ∧ 80 ≤ 80 ∧ (rotating 0xFFFFFFFFFFFFFFFFFFFF#80).ur.toNat < 2 ^ 80) ∧
    isRefused (.enc .big 4) bound = true ∧
    (fieldOp (encode (.rol 1 8)) = fieldOp (encode (.rol 255 80)) ∧
      isRefused (.rol 1 8) (rotating 0x81#80) = isRefused (.rol 255 80) (rotating 1#80) ∧
      ((rotating 0x81#80).phase = .initialized ↔ (rotating 1#80).phase = .initialized)) := by
  decide +kernel

theorem complete_inv : Inv complete where
  schedule := complete_valid
  completeNoError := fun _ => rfl
  completeOutput := fun _ => .inl (by decide +kernel)
  noKeyEmpty := fun h => by cases h
  neverInvalidArgument := by decide

theorem witness_StepKeepsTheInvariant :
    Inv (asked (.write 0x20 (.word 0x1000000B#32)) complete) ∧
    ∃ t, step (asked (.write 0x20 (.word 0x1000000B#32)) complete) = .next t :=
  ⟨⟨complete_inv.1, complete_inv.2, complete_inv.3, complete_inv.4, complete_inv.5⟩, _, rfl⟩

theorem witness_EncEqualsItsSequence : bound.phase ≠ .empty ∧ complete.phase ≠ .empty := by decide

/-- An unbound key that differs, and a stale schedule that differs. -/
theorem witness_StaleRegistersAreNeverRead :
    SameButStale loaded { loaded with key := 1#80 } ∧ loaded ≠ { loaded with key := 1#80 } ∧
    SameButStale bound { bound with kr := 1#80 } ∧ bound ≠ { bound with kr := 1#80 } := by
  refine ⟨⟨rfl, ?_, ?_⟩, ?_, ⟨rfl, fun _ => rfl, ?_⟩, ?_⟩
  · intro h; exact absurd rfl h
  · intro h; cases h <;> contradiction
  · intro h; exact absurd (congrArg State.key h) (by decide)
  · intro h; cases h <;> contradiction
  · intro h; exact absurd (congrArg State.kr h) (by decide)

end Sys2Proof.Tests
end

namespace Sys2Proof.Machine

/-! ## What a command and a step can do

One inversion lemma for the commands and one for the step; the rules about registers and the
invariant are derived from them. -/

/-- Everything a command can answer: NOP the same state (R174), a refusal only the common step and an
error code (R206), and each command, where it completes, its own next state. Of a refusal it says only
that NoKey is for EMPTY alone (R204) and that no command raises InvalidArgument (R203). -/
inductive ExecTo (m : State) : Instr → State → Prop
  | nop : ExecTo m .nop m
  | refused (i : Instr) (err : Err) (arg : err ≠ .invalidArgument)
      (key : err = .noKey → m.phase = .empty) : ExecTo m i (refusedWith err m)
  | ldkey (e : ByteOrder) : ExecTo m (.ldkey e 10)
      ((((takeWord m).setKey (keyInteger e m)).setPhase .initialized).setErr .noError)
  | ksched (bound : m.phase ≠ .empty) : ExecTo m .ksched
      (((generateSchedule (takeWord m)).setPhase .ready).setErr .noError)
  | enc (e : ByteOrder) (bound : m.phase ≠ .empty) :
      ExecTo m (.enc e 8) (encrypted e (ensureSchedule (takeWord m)))
  | ldblk (e : ByteOrder) : ExecTo m (.ldblk e 8)
      (((takeWord m).setS (blockInteger e m)).setErr .noError)
  | stblk (e : ByteOrder) : ExecTo m (.stblk e)
      (((takeWord m).setDout (i2b e m.s 8)).setErr .noError)
  | addrk (n : Nat) (bound : m.phase ≠ .empty) (range : 1 ≤ n ∧ n ≤ 32) : ExecTo m (.addrk n)
      ((((ensureSchedule (takeWord m)).setS (addrk (ensureSchedule (takeWord m)).s
        (roundKeyAt (ensureSchedule (takeWord m)).rk n range))).setPhase .ready).setErr .noError)
  | sboxl : ExecTo m .sboxl (((takeWord m).setS (sboxlayer m.s)).setErr .noError)
  | perml : ExecTo m .perml (((takeWord m).setS (player m.s)).setErr .noError)
  | rdrk (e : ByteOrder) (n : Nat) (bound : m.phase ≠ .empty) (range : 1 ≤ n ∧ n ≤ 32) :
      ExecTo m (.rdrk e n) ((((ensureSchedule (takeWord m)).setDout
        (i2b e (roundKeyAt (ensureSchedule (takeWord m)).rk n range) 8)).setPhase .ready).setErr
          .noError)
  | rol (bits width : Nat) (good : ¬ badRotation width m) : ExecTo m (.rol bits width)
      (((takeWord m).setUr ((Machine.rol width (by omega) (m.ur.setWidth width) bits).setWidth
        80)).setErr .noError)
  | ror (bits width : Nat) (good : ¬ badRotation width m) : ExecTo m (.ror bits width)
      (((takeWord m).setUr ((Machine.ror width (by omega) (m.ur.setWidth width) bits).setWidth
        80)).setErr .noError)

/-- A refusal with an error other than NoKey and InvalidArgument, in any phase. -/
theorem ExecTo.refusedAny {m : State} {i : Instr} {err : Err} (arg : err ≠ .invalidArgument)
    (key : err ≠ .noKey) : ExecTo m i (refusedWith err m) :=
  .refused i err arg fun h => absurd h key

/-- A refusal for want of a key. -/
theorem ExecTo.refusedNoKey {m : State} {i : Instr} (h : m.phase = .empty) :
    ExecTo m i (refusedWith .noKey m) :=
  .refused i .noKey (by decide) fun _ => h

theorem execTo_of_exec {i : Instr} {m t : State} (h : exec i m = .next t) : ExecTo m i t := by
  cases i
  case nop => cases h; exact .nop
  case ldkey e len =>
    rw [exec_ldkey] at h
    split at h <;> cases h
    · subst len; exact .ldkey e
    · exact .refusedAny (by decide) (by decide)
  case ksched =>
    rw [exec_ksched] at h
    split at h <;> cases h
    · exact .refusedNoKey ‹_›
    · exact .ksched ‹_›
  case enc e len =>
    rw [exec_enc] at h
    split at h
    · cases h; exact .refusedNoKey ‹_›
    · split at h <;> cases h
      · subst len; exact .enc e ‹_›
      · exact .refusedAny (by decide) (by decide)
  case ldblk e len =>
    rw [exec_ldblk] at h
    split at h <;> cases h
    · subst len; exact .ldblk e
    · exact .refusedAny (by decide) (by decide)
  case stblk e => cases h; exact .stblk e
  case addrk n =>
    rw [exec_addrk] at h
    split at h
    · cases h; exact .refusedNoKey ‹_›
    · split at h <;> cases h
      · exact .addrk n ‹_› ‹_›
      · exact .refusedAny (by decide) (by decide)
  case sboxl => cases h; exact .sboxl
  case perml => cases h; exact .perml
  case rdrk e n =>
    rw [exec_rdrk] at h
    split at h
    · cases h; exact .refusedNoKey ‹_›
    · split at h <;> cases h
      · exact .rdrk e n ‹_› ‹_›
      · exact .refusedAny (by decide) (by decide)
  case rol bits width =>
    rw [exec_rol] at h
    split at h <;> cases h
    · exact .refusedAny (by decide) (by decide)
    · exact .rol bits width ‹_›
  case ror bits width =>
    rw [exec_ror] at h
    split at h <;> cases h
    · exact .refusedAny (by decide) (by decide)
    · exact .ror bits width ‹_›

/-- CMD has the one number 0x20 (R52). -/
theorem regAt_eq_cmd {number : Nat} (h : regAt number = some .cmd) : number = 0x20 := by
  by_contra hne
  simp only [regAt, if_neg hne] at h
  split_ifs at h <;> cases h

/-- A word is a command or illegal, and both have their outcome (R173, R205). -/
theorem executeWord_cases (c : Word) (m : State) :
    (∃ i, decode c = .command i ∧ executeWord c m = exec i m) ∨
    executeWord c m = .next (refusedWith .illegalCommand m) := by
  cases hd : decode c with
  | command i => exact .inl ⟨i, rfl, executeWord_command hd m⟩
  | illegal why => exact .inr (executeWord_illegal hd m)

/-- Everything a step that answers a next state can do: leave the engine's own registers alone, run the
word written to CMD, or reset (R53, R54, R226, R230). -/
theorem step_next_cases {m t : State} (h : step m = .next t) :
    (∃ kin din ur pending answers, t = { m with
      kin := kin, din := din, ur := ur, pending := pending, answers := answers }) ∨
    (∃ c rest, m.pending = .write 0x20 (.word c) :: rest ∧
      executeWord c (m.setPending rest) = .next t) ∨
    (∃ rest, m.pending = .reset :: rest ∧ t = hostReset (m.setPending rest)) := by
  rcases step_cases m with ⟨-, hs⟩ | ⟨a, rest, hp, hs⟩
  · cases hs.symm.trans h
    exact .inl ⟨_, _, _, _, _, rfl⟩
  · have h : takeHostStep a (m.setPending rest) = .next t := hs.symm.trans h
    cases a with
    | read number =>
      obtain ⟨v, rfl⟩ := hostRead_frame h
      exact .inl ⟨_, _, _, _, _, rfl⟩
    | write number value =>
      rcases hostWrite_cases h with ⟨_, rfl⟩ | ⟨_, rfl⟩ | ⟨_, rfl⟩ | ⟨c, hr, rfl, hc⟩
      · exact .inl ⟨_, _, _, _, _, rfl⟩
      · exact .inl ⟨_, _, _, _, _, rfl⟩
      · exact .inl ⟨_, _, _, _, _, rfl⟩
      · cases regAt_eq_cmd hr
        exact .inr (.inl ⟨c, rest, hp, hc⟩)
    | reset =>
      cases h
      exact .inr (.inr ⟨rest, hp, rfl⟩)

/-! ## Which registers a command changes (R36) -/

section
variable (m : State)

@[simp] theorem ensureSchedule_kin : (ensureSchedule m).kin = m.kin := by rw [ensureSchedule_frame]
@[simp] theorem ensureSchedule_din : (ensureSchedule m).din = m.din := by rw [ensureSchedule_frame]
@[simp] theorem ensureSchedule_dout : (ensureSchedule m).dout = m.dout := by
  rw [ensureSchedule_frame]
@[simp] theorem ensureSchedule_ur : (ensureSchedule m).ur = m.ur := by rw [ensureSchedule_frame]
@[simp] theorem ensureSchedule_key : (ensureSchedule m).key = m.key := by rw [ensureSchedule_frame]
@[simp] theorem ensureSchedule_s : (ensureSchedule m).s = m.s := by rw [ensureSchedule_frame]
@[simp] theorem ensureSchedule_pending : (ensureSchedule m).pending = m.pending := by
  rw [ensureSchedule_frame]
@[simp] theorem ensureSchedule_answers : (ensureSchedule m).answers = m.answers := by
  rw [ensureSchedule_frame]
@[simp] theorem ensureSchedule_draws : (ensureSchedule m).draws = m.draws := by
  rw [ensureSchedule_frame]

end

/-- EnsureSchedule changes KR and RK only in INITIALIZED (R137). -/
theorem ensureSchedule_takeWord_schedule (m : State) :
    ((ensureSchedule (takeWord m)).kr = m.kr ∧ (ensureSchedule (takeWord m)).rk = m.rk) ∨
      m.phase = .initialized := by
  by_cases h : m.phase = .initialized
  · exact .inr h
  · rw [ensureSchedule_of_ne (by simpa using h)]
    exact .inl ⟨rfl, rfl⟩

section
variable {i : Instr} {m t : State}

/-- No command changes the host's buffers or the model's own fields (R36; logs 1, 2, 5). -/
theorem exec_keeps_host (h : exec i m = .next t) :
    t.kin = m.kin ∧ t.din = m.din ∧
      t.pending = m.pending ∧ t.answers = m.answers ∧ t.draws = m.draws := by
  cases execTo_of_exec h with
  | enc | addrk | rdrk => simp
  | _ => exact ⟨rfl, rfl, rfl, rfl, rfl⟩

theorem exec_dout (h : exec i m = .next t) :
    t.dout = m.dout ∨ (∃ e, i = .enc e 8) ∨ (∃ e, i = .stblk e) ∨ (∃ e n, i = .rdrk e n) := by
  cases execTo_of_exec h with
  | enc e => exact .inr (.inl ⟨e, rfl⟩)
  | stblk e => exact .inr (.inr (.inl ⟨e, rfl⟩))
  | rdrk e n => exact .inr (.inr (.inr ⟨e, n, rfl⟩))
  | addrk => exact .inl (ensureSchedule_dout _)
  | _ => exact .inl rfl

theorem exec_ur (h : exec i m = .next t) :
    t.ur = m.ur ∨ ∃ bits width, i = .rol bits width ∨ i = .ror bits width := by
  cases execTo_of_exec h with
  | rol bits width => exact .inr ⟨bits, width, .inl rfl⟩
  | ror bits width => exact .inr ⟨bits, width, .inr rfl⟩
  | enc | addrk | rdrk => exact .inl (ensureSchedule_ur _)
  | _ => exact .inl rfl

theorem exec_key (h : exec i m = .next t) : t.key = m.key ∨ ∃ e, i = .ldkey e 10 := by
  cases execTo_of_exec h with
  | ldkey e => exact .inr ⟨e, rfl⟩
  | enc | addrk | rdrk => exact .inl (ensureSchedule_key _)
  | _ => exact .inl rfl

theorem exec_schedule (h : exec i m = .next t) :
    (t.kr = m.kr ∧ t.rk = m.rk) ∨ i = .ksched ∨ (m.phase = .initialized ∧
      ((∃ e, i = .enc e 8) ∨ (∃ n, i = .addrk n) ∨ (∃ e n, i = .rdrk e n))) := by
  cases execTo_of_exec h with
  | ksched => exact .inr (.inl rfl)
  | enc e =>
    exact (ensureSchedule_takeWord_schedule m).imp id fun hp => .inr ⟨hp, .inl ⟨e, rfl⟩⟩
  | addrk n =>
    exact (ensureSchedule_takeWord_schedule m).imp id fun hp => .inr ⟨hp, .inr (.inl ⟨n, rfl⟩)⟩
  | rdrk e n =>
    exact (ensureSchedule_takeWord_schedule m).imp id fun hp => .inr ⟨hp, .inr (.inr ⟨e, n, rfl⟩)⟩
  | _ => exact .inl ⟨rfl, rfl⟩

theorem exec_s (h : exec i m = .next t) :
    t.s = m.s ∨ (∃ e, i = .enc e 8) ∨ (∃ e, i = .ldblk e 8) ∨ (∃ n, i = .addrk n) ∨
      i = .sboxl ∨ i = .perml := by
  cases execTo_of_exec h with
  | enc e => exact .inr (.inl ⟨e, rfl⟩)
  | ldblk e => exact .inr (.inr (.inl ⟨e, rfl⟩))
  | addrk n => exact .inr (.inr (.inr (.inl ⟨n, rfl⟩)))
  | sboxl => exact .inr (.inr (.inr (.inr (.inl rfl))))
  | perml => exact .inr (.inr (.inr (.inr (.inr rfl))))
  | rdrk => exact .inl (ensureSchedule_s _)
  | _ => exact .inl rfl

end

/-- Settles O51, register by register. -/
theorem registerUsePerCommand : Obligations.RegisterUsePerCommand := by
  intro i m t h
  obtain ⟨kin, din, pending, answers, draws⟩ := exec_keeps_host h
  exact ⟨kin, din, pending, answers, draws, (exec_dout h).resolve_left, (exec_ur h).resolve_left,
    (exec_key h).resolve_left, fun hne => (exec_schedule h).resolve_left (not_and_or.2 hne),
    (exec_s h).resolve_left⟩

/-- Settles O52: of the three things a step can do, only a command and reset write KEY, and of the
commands only LDKEY of length 10. -/
theorem keyChangesOnlyByLdkeyOrReset : Obligations.KeyChangesOnlyByLdkeyOrReset := by
  intro m t h hne
  rcases step_next_cases h with ⟨_, _, _, _, _, rfl⟩ | ⟨c, rest, hp, hc⟩ | ⟨rest, hp, -⟩
  · exact absurd rfl hne
  · rcases executeWord_cases c (m.setPending rest) with ⟨i, hd, he⟩ | he
    · obtain ⟨e, rfl⟩ := (exec_key (he.symm.trans hc)).resolve_left hne
      exact .inr ⟨c, e, rest, hp, hd⟩
    · cases he.symm.trans hc
      exact absurd rfl hne
  · exact .inl ⟨rest, hp⟩

/-- The phases of R31 in which the schedule is valid (R35). -/
theorem ready_or_complete {p : Phase} (bound : p ≠ .empty) (generated : p ≠ .initialized) :
    p = .ready ∨ p = .complete := by
  cases p with
  | empty => exact absurd rfl bound
  | initialized => exact absurd rfl generated
  | ready => exact .inl rfl
  | complete => exact .inr rfl

/-! ## The invariant (R35, R172, R203, R204) -/

section
variable {m t : State}

theorem ScheduleValid.takeWord (h : ScheduleValid m) : ScheduleValid (takeWord m) := fun hp =>
  h ((leaveComplete_eq_ready m.phase).1 (hp.resolve_right (leaveComplete_ne_complete _)))

/-- With a key bound and the invariant of R35, EnsureSchedule leaves the schedule of KEY (R137). -/
theorem ensureSchedule_valid (h : ScheduleValid m) (bound : m.phase ≠ .empty) :
    (ensureSchedule m).rk = keyschedule (ensureSchedule m).key ∧
      (ensureSchedule m).kr = finalKr (ensureSchedule m).key := by
  by_cases hp : m.phase = .initialized
  · rw [ensureSchedule_initialized hp]
    exact ⟨rfl, rfl⟩
  · rw [ensureSchedule_of_ne hp]
    exact h (ready_or_complete bound hp)

/-- After the common step a command works on the schedule of KEY. -/
theorem ensureSchedule_takeWord_valid (h : ScheduleValid m) (bound : m.phase ≠ .empty) :
    (ensureSchedule (takeWord m)).rk = keyschedule (ensureSchedule (takeWord m)).key ∧
      (ensureSchedule (takeWord m)).kr = finalKr (ensureSchedule (takeWord m)).key :=
  ensureSchedule_valid h.takeWord (by simpa using bound)

/-- Outside COMPLETE the invariant says nothing of S and DOUT. -/
theorem inv_of_not_complete (schedule : ScheduleValid t) (phase : t.phase ≠ .complete)
    (key : t.err = .noKey → t.phase = .empty) (arg : t.err ≠ .invalidArgument) : Inv t where
  schedule := schedule
  completeNoError h := absurd h phase
  completeOutput h := absurd h phase
  noKeyEmpty := key
  neverInvalidArgument := arg

/-- EMPTY with no error, as reset leaves it, meets the invariant whatever the registers hold (R42). -/
theorem inv_of_empty (phase : t.phase = .empty) (err : t.err = .noError) : Inv t :=
  inv_of_not_complete (by simp [ScheduleValid, phase]) (by simp [phase]) (fun _ => phase)
    (by simp [err])

/-- A refused command keeps the invariant: it has left COMPLETE. -/
theorem inv_refusedWith {e : Err} (h : ScheduleValid m) (key : e = .noKey → m.phase = .empty)
    (arg : e ≠ .invalidArgument) : Inv (refusedWith e m) :=
  inv_of_not_complete h.takeWord (leaveComplete_ne_complete _)
    (fun he => (leaveComplete_eq_empty _).2 (key he)) arg

/-- A command that completes outside COMPLETE keeps the invariant if it keeps the schedule valid. -/
theorem inv_completed (schedule : ScheduleValid t) (phase : t.phase ≠ .complete) :
    Inv (t.setErr .noError) :=
  inv_of_not_complete schedule phase nofun nofun

/-- ENC's next state: DOUT takes the bytes of the new S (R181). -/
theorem inv_encrypted (e : ByteOrder) (h : m.rk = keyschedule m.key ∧ m.kr = finalKr m.key) :
    Inv (encrypted e m) where
  schedule _ := h
  completeNoError _ := rfl
  completeOutput _ := by
    cases e
    · exact .inl rfl
    · exact .inr rfl
  noKeyEmpty := nofun
  neverInvalidArgument := nofun

theorem exec_keeps_inv {i : Instr} (h : Inv m) (hx : exec i m = .next t) : Inv t := by
  have valid := h.schedule.takeWord
  have phase : (takeWord m).phase ≠ .complete := leaveComplete_ne_complete _
  cases execTo_of_exec hx with
  | nop => exact h
  | refused _ err arg key => exact inv_refusedWith h.schedule key arg
  | ldkey => exact inv_completed (by simp [ScheduleValid]) (by simp)
  | ksched => exact inv_completed (fun _ => ⟨rfl, rfl⟩) (by simp)
  | enc e bound => exact inv_encrypted e (ensureSchedule_takeWord_valid h.schedule bound)
  | addrk _ bound | rdrk _ _ bound =>
    exact inv_completed (fun _ => ensureSchedule_takeWord_valid h.schedule bound) (by simp)
  | ldblk | stblk | sboxl | perml | rol | ror => exact inv_completed valid phase

/-- The invariant does not speak of the host's buffers, UR or the host's record. -/
theorem Inv.of_host_fields (h : Inv m) (kin : Vector Byte 10) (din : Vector Byte 8) (ur : KeyReg)
    (pending : List HostStep) (answers : List BusValue) :
    Inv { m with kin := kin, din := din, ur := ur, pending := pending, answers := answers } :=
  ⟨h.schedule, h.completeNoError, h.completeOutput, h.noKeyEmpty, h.neverInvalidArgument⟩

theorem executeWord_keeps_inv {c : Word} (h : Inv m) (hx : executeWord c m = .next t) : Inv t := by
  rcases executeWord_cases c m with ⟨i, -, he⟩ | he
  · exact exec_keeps_inv h (he.symm.trans hx)
  · cases he.symm.trans hx
    exact inv_refusedWith h.schedule nofun nofun

end

/-- Settles O54, by the three things a step can do. -/
theorem stepKeepsTheInvariant : Obligations.StepKeepsTheInvariant := by
  intro m t hi h
  rcases step_next_cases h with ⟨_, _, _, _, _, rfl⟩ | ⟨c, rest, -, hc⟩ | ⟨rest, -, rfl⟩
  · exact hi.of_host_fields ..
  · exact executeWord_keeps_inv (hi.of_host_fields ..) hc
  · exact inv_of_empty rfl rfl

/-- Settles O55. -/
theorem resetMeetsTheInvariant : Obligations.ResetMeetsTheInvariant := inv_of_empty rfl rfl

/-! ## Stale registers (R26, R35, R42) -/

section
variable {m m' : State}

theorem SameButStale.refl (m : State) : SameButStale m m := ⟨rfl, fun _ => rfl, fun _ => ⟨rfl, rfl⟩⟩

/-- The second state is the first with other values in the registers that may be stale. -/
theorem SameButStale.exists_eq (h : SameButStale m m') :
    ∃ key kr rk, m' = { m with key := key, kr := kr, rk := rk } := ⟨_, _, _, h.1⟩

theorem SameButStale.phase_eq (h : SameButStale m m') : m'.phase = m.phase := by
  rw [h.1]

/-- Writing the same values to the registers that are never stale keeps two states the same. -/
theorem SameButStale.write (h : SameButStale m m') (kin : Vector Byte 10) (din dout : Vector Byte 8)
    (ur : KeyReg) (s : Block) (err : Err) (pending : List HostStep) (answers : List BusValue) :
    SameButStale
      { m with
        kin := kin, din := din, dout := dout, ur := ur, s := s, err := err
        pending := pending, answers := answers }
      { m' with
        kin := kin, din := din, dout := dout, ur := ur, s := s, err := err
        pending := pending, answers := answers } := by
  obtain ⟨key, kr, rk, rfl⟩ := h.exists_eq
  exact ⟨rfl, h.2⟩

/-- The common step makes no schedule valid: READY comes from READY and COMPLETE only (R172). -/
theorem SameButStale.takeWord (h : SameButStale m m') :
    SameButStale (takeWord m) (takeWord m') := by
  obtain ⟨key, kr, rk, rfl⟩ := h.exists_eq
  obtain ⟨-, hkey, hschedule⟩ := h
  exact ⟨rfl, fun hp => hkey (by simpa using hp), fun hp => hschedule
    ((leaveComplete_eq_ready m.phase).1 (hp.resolve_right (leaveComplete_ne_complete _)))⟩

theorem SameButStale.refusedWith (h : SameButStale m m') (e : Err) :
    SameButStale (refusedWith e m) (refusedWith e m') := by
  have taken := h.takeWord
  obtain ⟨key, kr, rk, rfl⟩ := h.exists_eq
  exact taken.write ..

/-- Generating the schedule reads KEY alone, and leaves nothing stale once a key is bound (R134). -/
theorem SameButStale.generateSchedule_eq (h : SameButStale m m') (bound : m.phase ≠ .empty) :
    generateSchedule m' = generateSchedule m := by
  have key : m'.key = m.key := h.2.1 bound
  rw [generateSchedule, generateSchedule, key, h.1]
  simp [State.setSchedule, key]

/-- Once EnsureSchedule has run with a key bound, nothing is stale (R137). -/
theorem SameButStale.ensureSchedule_eq (h : SameButStale m m') (bound : m.phase ≠ .empty) :
    ensureSchedule m' = ensureSchedule m := by
  by_cases hp : m.phase = .initialized
  · rw [ensureSchedule_initialized hp, ensureSchedule_initialized (h.phase_eq.trans hp),
      h.generateSchedule_eq bound]
  · rw [ensureSchedule_of_ne hp, ensureSchedule_of_ne (by rwa [h.phase_eq])]
    obtain ⟨heq, hkey, hschedule⟩ := h
    obtain ⟨hkr, hrk⟩ := hschedule (ready_or_complete bound hp)
    rw [heq, hkey bound, hkr, hrk]

/-- Two runs of one command from states that are the same but for stale registers. A command that needs
a key either is refused in both or has a schedule that is not stale in either. -/
theorem SameButStale.exec (h : SameButStale m m') (i : Instr) :
    SameAnswerButStale (exec i m) (exec i m') := by
  have taken := h.takeWord
  have generated (bound : m.phase ≠ .empty) :=
    taken.generateSchedule_eq (by simpa using bound)
  have ensured (bound : m.phase ≠ .empty) := taken.ensureSchedule_eq (by simpa using bound)
  obtain ⟨key, kr, rk, rfl⟩ := h.exists_eq
  cases i
  case nop => exact h
  case ldkey e len =>
    rw [exec_ldkey, exec_ldkey]
    split
    · exact ⟨rfl, fun _ => rfl, by simp⟩
    · exact h.refusedWith _
  case ksched =>
    simp only [exec_ksched]
    split
    · exact h.refusedWith _
    · rw [generated ‹_›]; exact .refl _
  case enc | addrk | rdrk =>
    simp only [exec_enc, exec_addrk, exec_rdrk]
    split
    · exact h.refusedWith _
    · rw [ensured ‹_›]
      split
      · exact .refl _
      · exact h.refusedWith _
  case ldblk e len =>
    rw [exec_ldblk, exec_ldblk]
    split
    · exact taken.write ..
    · exact h.refusedWith _
  case stblk | sboxl | perml => exact taken.write ..
  case rol | ror =>
    simp only [exec_rol, exec_ror]
    split
    · exact h.refusedWith _
    · exact taken.write ..

theorem SameButStale.executeWord (h : SameButStale m m') (c : Word) :
    SameAnswerButStale (executeWord c m) (executeWord c m') := by
  cases hd : decode c with
  | command i => rw [executeWord_command hd, executeWord_command hd]; exact h.exec i
  | illegal why => rw [executeWord_illegal hd, executeWord_illegal hd]; exact h.refusedWith _

theorem SameButStale.hostRead (h : SameButStale m m') (number : Nat) :
    SameAnswerButStale (hostRead number m) (hostRead number m') := by
  obtain ⟨key, kr, rk, rfl⟩ := h.exists_eq
  unfold Machine.hostRead
  split
  · rfl
  · exact h.write ..
  · exact h.write ..
  · exact h.write ..
  · rfl
  · exact h.write ..
  · exact h.write ..

theorem SameButStale.hostWrite (h : SameButStale m m') (number : Nat) (v : BusValue) :
    SameAnswerButStale (hostWrite number v m) (hostWrite number v m') := by
  have ran := h.executeWord
  obtain ⟨key, kr, rk, rfl⟩ := h.exists_eq
  unfold Machine.hostWrite
  split
  case h_2 | h_3 | h_4 => exact h.write ..
  case h_5 c _ => exact ran c
  all_goals rfl

/-- Reset draws every register afresh, so it leaves nothing stale (R42, R230). -/
theorem SameButStale.hostReset_eq (h : SameButStale m m') : hostReset m' = hostReset m := by
  rw [h.1]
  rfl

theorem SameButStale.takeHostStep (h : SameButStale m m') (a : HostStep) :
    SameAnswerButStale (takeHostStep a m) (takeHostStep a m') := by
  cases a with
  | read number => exact h.hostRead number
  | write number v => exact h.hostWrite number v
  | reset =>
    show SameButStale (hostReset m) (hostReset m')
    rw [h.hostReset_eq]
    exact .refl _

end

/-- Settles O57, by the host step taken. -/
theorem staleRegistersAreNeverRead : Obligations.StaleRegistersAreNeverRead := by
  intro m m' h
  have pending : m'.pending = m.pending := by rw [h.1]
  cases hp : m.pending with
  | nil => rw [step_idle hp, step_idle (pending.trans hp)]; exact h
  | cons a rest =>
    rw [step_cons hp, step_cons (pending.trans hp)]
    obtain ⟨key, kr, rk, rfl⟩ := h.exists_eq
    exact (h.write ..).takeHostStep a

/-! ## STATUS (R30 to R32, R200) -/

/-- Settles O16. -/
theorem resetStateIsEmptyWithoutError : Obligations.ResetStateIsEmptyWithoutError :=
  ⟨rfl, rfl, rfl⟩

/-- R30's layout, for every pair of codes. -/
theorem status_fields (e : BitVec 3) (p : BitVec 2) :
    (0#1 ++ e ++ 0#2 ++ p).extractLsb' 7 1 = 0#1 ∧ (0#1 ++ e ++ 0#2 ++ p).extractLsb' 2 2 = 0#2 ∧
      (0#1 ++ e ++ 0#2 ++ p).extractLsb' 4 3 = e ∧ (0#1 ++ e ++ 0#2 ++ p).extractLsb' 0 2 = p := by
  revert e p
  decide

/-- Settles O18: the layout of the codes, then the codes of R200 and R31. -/
theorem statusLayout : Obligations.StatusLayout := by
  intro m
  obtain ⟨top, middle, err, phase⟩ := status_fields m.err.code m.phase.code
  refine ⟨top, middle, err.trans ?_, phase.trans ?_⟩
  · cases m.err <;> rfl
  · cases m.phase <;> rfl

end Sys2Proof.Machine

namespace Sys2Proof.Machine

/-! ## The host port (R52 to R55)

The register map both ways, one rule per kind of host access, and which accesses complete. -/

/-- The number of a register in the map of R52. -/
def HostReg.number : HostReg → Nat
  | .kin j => j
  | .din j => 0x10 + j
  | .dout j => 0x18 + j
  | .cmd => 0x20
  | .status => 0x21
  | .ur => 0x22

/-- No register has two numbers (R52). -/
theorem number_of_regAt {number : Nat} {r : HostReg} (h : regAt number = some r) :
    number = r.number := by
  unfold regAt at h
  split_ifs at h <;> cases h <;> simp only [HostReg.number] <;> omega

section
variable {number : Nat} (m : State)

theorem hostRead_kin (j : Fin 10) : hostRead j m = .next (m.pushAnswer (.byte m.kin[j])) := by
  simp only [hostRead, regAt_kin]

theorem hostRead_din (j : Fin 8) :
    hostRead (0x10 + j) m = .next (m.pushAnswer (.byte m.din[j])) := by
  simp only [hostRead, regAt_din]

theorem hostRead_dout (j : Fin 8) :
    hostRead (0x18 + j) m = .next (m.pushAnswer (.byte m.dout[j])) := by
  simp only [hostRead, regAt_dout]

theorem hostRead_cmd : hostRead 0x20 m = .refused (.readOfWriteOnly 0x20) := rfl

theorem hostRead_status : hostRead 0x21 m = .next (m.pushAnswer (.byte (statusByte m))) := rfl

theorem hostRead_ur : hostRead 0x22 m = .next (m.pushAnswer (.wide m.ur)) := rfl

theorem hostRead_unmapped (h : regAt number = none) :
    hostRead number m = .fault (.unmappedRead number) := by
  simp only [hostRead, h]

theorem hostWrite_kin (j : Fin 10) (v : Byte) :
    hostWrite j (.byte v) m = .next (m.setKin (m.kin.set j v)) := by
  simp only [hostWrite, regAt_kin]

theorem hostWrite_din (j : Fin 8) (v : Byte) :
    hostWrite (0x10 + j) (.byte v) m = .next (m.setDin (m.din.set j v)) := by
  simp only [hostWrite, regAt_din]

theorem hostWrite_dout (j : Fin 8) (v : BusValue) :
    hostWrite (0x18 + j) v m = .refused (.writeOfReadOnly (0x18 + j)) := by
  simp only [hostWrite, regAt_dout]

theorem hostWrite_cmd (c : Word) : hostWrite 0x20 (.word c) m = executeWord c m := rfl

theorem hostWrite_status (v : BusValue) :
    hostWrite 0x21 v m = .refused (.writeOfReadOnly 0x21) := rfl

theorem hostWrite_ur (v : KeyReg) : hostWrite 0x22 (.wide v) m = .next (m.setUr v) := rfl

theorem hostWrite_unmapped (h : regAt number = none) (v : BusValue) :
    hostWrite number v m = .fault (.unmappedWrite number) := by
  simp only [hostWrite, h]

end

/-- A number of an eight-byte range of the map is the range's base plus an index. -/
theorem exists_index {base number : Nat} (h : base ≤ number ∧ number ≤ base + 7) :
    ∃ j : Fin 8, number = base + j :=
  ⟨⟨number - base, by omega⟩, (Nat.add_sub_of_le h.1).symm⟩

/-- Every word written to CMD completes (R185, R205). -/
theorem executeWord_completes (c : Word) (m : State) : ∃ t, executeWord c m = .next t := by
  rcases executeWord_cases c m with ⟨i, -, he⟩ | he
  · exact he ▸ exec_completes i m
  · exact ⟨_, he⟩

/-- Only the readable numbers of R52 answer a read. -/
theorem hostRead_completes_iff (number : Nat) (m : State) :
    (∃ t, hostRead number m = .next t) ↔ Admitted (.read number) := by
  constructor
  · rintro ⟨t, h⟩
    unfold hostRead at h
    split at h
    case h_1 | h_5 => cases h
    all_goals
      have hn := number_of_regAt ‹_›
      simp only [HostReg.number] at hn
      simp only [Admitted]
      omega
  · rintro (h | h | rfl | rfl)
    · exact ⟨_, hostRead_kin m ⟨number, by omega⟩⟩
    · rcases Nat.lt_or_ge number 0x18 with hlt | hge
      · obtain ⟨j, rfl⟩ := exists_index (base := 0x10) ⟨h.1, by omega⟩
        exact ⟨_, hostRead_din m j⟩
      · obtain ⟨j, rfl⟩ := exists_index ⟨hge, h.2⟩
        exact ⟨_, hostRead_dout m j⟩
    · exact ⟨_, hostRead_status m⟩
    · exact ⟨_, hostRead_ur m⟩

/-- Only a writable number of R52 takes a write, and only of its own width (R54, R64). -/
theorem hostWrite_completes_iff (number : Nat) (v : BusValue) (m : State) :
    (∃ t, hostWrite number v m = .next t) ↔ Admitted (.write number v) := by
  constructor
  · rintro ⟨t, h⟩
    unfold hostWrite at h
    split at h
    case h_2 | h_3 | h_4 | h_5 =>
      have hn := number_of_regAt ‹_›
      simp only [HostReg.number] at hn
      simp only [Admitted]
      omega
    all_goals cases h
  · intro h
    cases v with
    | byte v =>
      rcases h with h | h
      · exact ⟨_, hostWrite_kin m ⟨number, by omega⟩ v⟩
      · obtain ⟨j, rfl⟩ := exists_index h
        exact ⟨_, hostWrite_din m j v⟩
    | word c =>
      cases h
      exact executeWord_completes c m
    | wide v =>
      cases h
      exact ⟨_, hostWrite_ur m v⟩

/-- Settles O10, range by range. -/
theorem hostReadAnswersTheRegister : Obligations.HostReadAnswersTheRegister := by
  intro m rest number hp
  rw [step_cons hp]
  refine ⟨?_, ?_, ?_, ?_, ?_⟩
  · rintro j rfl
    exact hostRead_kin _ j
  · rintro j rfl
    exact hostRead_din _ j
  · rintro j rfl
    exact hostRead_dout _ j
  · rintro rfl
    exact hostRead_status _
  · rintro rfl
    exact hostRead_ur _

/-- Settles O11. -/
theorem hostWriteReplacesOneRegister : Obligations.HostWriteReplacesOneRegister := by
  intro m rest
  refine ⟨fun j v hp => ?_, fun j v hp => ?_, fun v hp => ?_⟩ <;> rw [step_cons hp]
  · exact ⟨_, hostWrite_kin _ j v, Vector.getElem_set_self .., fun k hk =>
      Vector.getElem_set_ne j.isLt k.isLt (Fin.val_ne_of_ne hk.symm), rfl⟩
  · exact ⟨_, hostWrite_din _ j v, Vector.getElem_set_self .., fun k hk =>
      Vector.getElem_set_ne j.isLt k.isLt (Fin.val_ne_of_ne hk.symm), rfl⟩
  · exact hostWrite_ur _ v

/-- Settles O12. -/
theorem undefinedAccessesStop : Obligations.UndefinedAccessesStop := by
  intro m rest number
  refine ⟨fun hp => ?_, fun v hp => ?_⟩ <;> rw [step_cons hp]
  · refine ⟨fun h => hostRead_unmapped _ (regAt_unmapped h), ?_⟩
    rintro rfl
    exact hostRead_cmd (m.setPending rest)
  · refine ⟨fun h => hostWrite_unmapped _ (regAt_unmapped h) v, ?_⟩
    rintro (h | rfl)
    · obtain ⟨j, rfl⟩ := exists_index h
      exact hostWrite_dout _ j v
    · exact hostWrite_status (m.setPending rest) v

/-- Settles O13, by the kind of host step. -/
theorem exactlyAdmittedStepsComplete : Obligations.ExactlyAdmittedStepsComplete := by
  intro m h rest hp
  rw [step_cons hp]
  cases h with
  | read number => exact hostRead_completes_iff number _
  | write number v => exact hostWrite_completes_iff number v _
  | reset => exact ⟨fun _ => trivial, fun _ => ⟨_, rfl⟩⟩

/-- Settles O15, by what a read and a write can do. -/
theorem hostAccessLeavesTheEngineAlone : Obligations.HostAccessLeavesTheEngineAlone := by
  intro m t h rest hp notCmd notReset hs
  have hs : takeHostStep h (m.setPending rest) = .next t := (step_cons hp).symm.trans hs
  cases h with
  | read number =>
    obtain ⟨v, rfl⟩ := hostRead_frame hs
    simp
  | write number v =>
    rcases hostWrite_cases hs with ⟨_, rfl⟩ | ⟨_, rfl⟩ | ⟨_, rfl⟩ | ⟨c, hr, -, -⟩
    · simp
    · simp
    · simp
    · cases regAt_eq_cmd hr
      exact absurd rfl (notCmd v)
  | reset => exact absurd rfl notReset

/-- Settles O7. -/
theorem stepRunsTheWrittenCommand : Obligations.StepRunsTheWrittenCommand := by
  intro m rest c hp
  rw [step_cons hp]
  exact ⟨fun i hd => (hostWrite_cmd _ c).trans (executeWord_command hd _),
    fun _ _ => hostWrite_cmd _ c⟩

/-- Settles O14: the numbers below 0x23 by counting them. -/
theorem registerMapHas29Numbers : Obligations.RegisterMapHas29Numbers :=
  ⟨by decide, fun _ h => regAt_unmapped (.inr h)⟩

/-! ## Bytes and integers (R57, R58, R60)

Everything is proved under `little`; `big` is `little` of the reversed sequence. -/

section
variable {n : Nat}

theorem b2i_reverse (w : Nat) (B : Vector Byte n) : b2i w .little B = b2i w .big B.reverse := by
  simp [b2i, orderedValue]

theorem i2b_reverse {w : Nat} (v : BitVec w) : i2b .little v n = (i2b .big v n).reverse := by
  ext j hj : 1
  rw [Vector.getElem_reverse, i2b_big_get, i2b_little_get]
  congr 2
  omega

/-- At width 8n the integer of n bytes is not cut off (R57). -/
theorem b2i_little_toNat (B : Vector Byte n) :
    (b2i (8 * n) .little B).toNat = bytesValue B.toList := by
  have fits := bytesValue_lt B.toList
  rw [Vector.length_toList] at fits
  exact Nat.mod_eq_of_lt fits

theorem bytesValue_eq_sum (bs : List Byte) :
    bytesValue bs = ∑ j : Fin bs.length, bs[j].toNat * 2 ^ (8 * (j : Nat)) := by
  induction bs with
  | nil => rfl
  | cons b bs ih =>
    rw [bytesValue_cons, ih, Finset.mul_sum]
    refine Eq.trans ?_ (Fin.sum_univ_succ _).symm
    congr 1
    · simp
    · refine Finset.sum_congr rfl fun j _ => ?_
      simp
      ring

theorem b2i_little_eq_sum (B : Vector Byte n) :
    (b2i (8 * n) .little B).toNat = ∑ j : Fin n, B[j].toNat * 2 ^ (8 * (j : Nat)) := by
  rw [b2i_little_toNat]
  obtain ⟨⟨bs⟩, rfl⟩ := B
  exact bytesValue_eq_sum bs

/-- Byte j of the integer of a byte sequence is byte j of the sequence. -/
theorem bytesValue_byte (bs : List Byte) (j : Nat) (h : j < bs.length) :
    bytesValue bs / 2 ^ (8 * j) % 256 = bs[j].toNat := by
  induction bs generalizing j with
  | nil => cases h
  | cons b bs ih =>
    have hb := b.isLt
    rw [bytesValue_cons]
    cases j with
    | zero => simp; omega
    | succ j =>
      have tail : (b.toNat + 256 * bytesValue bs) / 256 = bytesValue bs := by omega
      rw [Nat.mul_succ, Nat.add_comm (8 * j), Nat.pow_add, ← Nat.div_div_eq_div_mul, tail]
      exact ih j (by simpa using h)

theorem i2b_little_b2i (B : Vector Byte n) : i2b .little (b2i (8 * n) .little B) n = B := by
  ext j hj : 1
  apply BitVec.eq_of_toNat_eq
  rw [i2b_little_get, BitVec.extractLsb'_toNat, b2i_little_toNat, Nat.shiftRight_eq_div_pow]
  exact bytesValue_byte B.toList j (by simpa using hj)

/-- Two integers of width 8n with the same n bytes are the same: bit i is bit i mod 8 of byte
i / 8. -/
theorem i2b_little_injective {v v' : BitVec (8 * n)} (h : i2b .little v n = i2b .little v' n) :
    v = v' := by
  have bit (v : BitVec (8 * n)) (i : Nat) (hi : i < 8 * n) :
      v.getLsbD i = ((i2b .little v n)[i / 8]).getLsbD (i % 8) := by
    rw [i2b_little_get, BitVec.getLsbD_extractLsb', Nat.div_add_mod]
    simp [Nat.mod_lt]
  apply BitVec.eq_of_getLsbD_eq
  intro i hi
  rw [bit v i hi, bit v' i hi, h]

theorem b2i_little_i2b (v : BitVec (8 * n)) : b2i (8 * n) .little (i2b .little v n) = v :=
  i2b_little_injective (i2b_little_b2i _)

theorem b2i_big (w : Nat) (B : Vector Byte n) : b2i w .big B = b2i w .little B.reverse := by
  rw [b2i_reverse, Vector.reverse_reverse]

theorem i2b_big {w : Nat} (v : BitVec w) : i2b .big v n = (i2b .little v n).reverse := by
  rw [i2b_reverse, Vector.reverse_reverse]

end

/-- Settles O33: under `big`, the sum of the reversed sequence taken in reversed order. -/
theorem bytesToIntegerIsTheSum : Obligations.BytesToIntegerIsTheSum := by
  refine fun n B => ⟨?_, b2i_little_eq_sum B⟩
  rw [b2i_big, b2i_little_eq_sum, ← Equiv.sum_comp Fin.revPerm]
  refine Finset.sum_congr rfl fun j _ => ?_
  have rev : n - (j + 1) = n - 1 - j := by omega
  have back : n - 1 - (n - 1 - j) = j := by omega
  simp [rev, back]

/-- Settles O34: the inverse laws under `big` from those under `little`, by reversing. -/
theorem integerToBytesInverts : Obligations.IntegerToBytesInverts := by
  refine fun n v B e =>
    ⟨fun j => i2b_big_get v n j j.isLt, fun j => i2b_little_get v n j j.isLt, ?_⟩
  cases e with
  | little => exact ⟨i2b_little_b2i B, b2i_little_i2b v⟩
  | big =>
    constructor
    · rw [i2b_big, b2i_big, i2b_little_b2i, Vector.reverse_reverse]
    · rw [b2i_big, i2b_big, Vector.reverse_reverse, b2i_little_i2b]

/-- Settles O35. -/
theorem littleIsBigReversed : Obligations.LittleIsBigReversed := by
  refine ⟨fun n B => b2i_reverse _ B, fun n v => i2b_reverse v, fun key block => ?_⟩
  simp only [encryptBytes, b2i_reverse, i2b_reverse]

end Sys2Proof.Machine

namespace Sys2Proof.Laws

/-! ## The encoding (R81 to R87)

A word selects a row of the opcode map exactly when it is the word of the command the row makes of the
word's own fields (`selects_iff_encode`); the two round trips and the reserved bits rest on that. The
legal words are counted row by row, from the bits a row's mask leaves free. -/

/-- A word is its six fields (R81). -/
theorem word_eq_iff_fields {c d : Word} : c = d ↔
    c.extractLsb' 28 4 = d.extractLsb' 28 4 ∧ c.extractLsb' 25 3 = d.extractLsb' 25 3 ∧
    c.extractLsb' 24 1 = d.extractLsb' 24 1 ∧ c.extractLsb' 16 8 = d.extractLsb' 16 8 ∧
    c.extractLsb' 8 8 = d.extractLsb' 8 8 ∧ c.extractLsb' 0 8 = d.extractLsb' 0 8 := by
  constructor
  · rintro rfl; simp
  · simp only [BitVec.toNat_eq, BitVec.extractLsb'_toNat, Nat.shiftRight_eq_div_pow]
    omega

/-- A mask and a pattern constrain a word field by field (R82). -/
theorem and_eq_iff_fields {c mask pattern : Word} : c &&& mask = pattern ↔
    c.extractLsb' 28 4 &&& mask.extractLsb' 28 4 = pattern.extractLsb' 28 4 ∧
    c.extractLsb' 25 3 &&& mask.extractLsb' 25 3 = pattern.extractLsb' 25 3 ∧
    c.extractLsb' 24 1 &&& mask.extractLsb' 24 1 = pattern.extractLsb' 24 1 ∧
    c.extractLsb' 16 8 &&& mask.extractLsb' 16 8 = pattern.extractLsb' 16 8 ∧
    c.extractLsb' 8 8 &&& mask.extractLsb' 8 8 = pattern.extractLsb' 8 8 ∧
    c.extractLsb' 0 8 &&& mask.extractLsb' 0 8 = pattern.extractLsb' 0 8 := by
  simp only [word_eq_iff_fields, BitVec.extractLsb'_and]

theorem orderBit_big : orderBit .big = 0#1 := rfl

theorem orderBit_injective : Function.Injective orderBit := by
  intro e e'
  cases e <;> cases e' <;> decide

theorem orderBit_fieldE (c : Word) : orderBit (fieldE c) = c.extractLsb' 24 1 := by
  have bit : c.extractLsb' 24 1 = BitVec.ofBool (c.getLsbD 24) := by
    ext i hi
    obtain rfl : i = 0 := by omega
    simp
  rw [bit, fieldE]
  cases c.getLsbD 24 <;> rfl

section
variable (op : BitVec 4) (e : ByteOrder) (a w n : Nat)

/-- `assemble` makes the one word with the given fields (R81). -/
theorem assemble_eq_iff {c : Word} : assemble op e a w n = c ↔
    c.extractLsb' 28 4 = op ∧ c.extractLsb' 25 3 = 0#3 ∧ c.extractLsb' 24 1 = orderBit e ∧
    c.extractLsb' 16 8 = BitVec.ofNat 8 a ∧ c.extractLsb' 8 8 = BitVec.ofNat 8 w ∧
    c.extractLsb' 0 8 = BitVec.ofNat 8 n := by
  have hop := op.isLt
  have he := (orderBit e).isLt
  simp only [BitVec.toNat_eq, BitVec.extractLsb'_toNat, assemble_toNat, BitVec.toNat_ofNat,
    Nat.shiftRight_eq_div_pow]
  omega

@[simp] theorem fieldE_assemble : fieldE (assemble op e a w n) = e := by
  obtain ⟨-, -, he, -, -, -⟩ := (assemble_eq_iff op e a w n).1 rfl
  exact orderBit_injective ((orderBit_fieldE _).trans he)

@[simp] theorem fieldA_assemble : fieldA (assemble op e a w n) = a % 256 := by
  obtain ⟨-, -, -, ha, -, -⟩ := (assemble_eq_iff op e a w n).1 rfl
  rw [fieldA, ha, BitVec.toNat_ofNat]

@[simp] theorem fieldW_assemble : fieldW (assemble op e a w n) = w % 256 := by
  obtain ⟨-, -, -, -, hw, -⟩ := (assemble_eq_iff op e a w n).1 rfl
  rw [fieldW, hw, BitVec.toNat_ofNat]

@[simp] theorem fieldN_assemble : fieldN (assemble op e a w n) = n % 256 := by
  obtain ⟨-, -, -, -, -, hn⟩ := (assemble_eq_iff op e a w n).1 rfl
  rw [fieldN, hn, BitVec.toNat_ofNat]

end

/-! ### Rows and the commands they build -/

/-- A word selects a row when it is the word of the command the row makes of the word's fields: the
mask covers exactly the fields that command does not list (R82, R83). -/
theorem selects_iff_encode {c : Word} {r : OpRow} (hr : r ∈ opcodeMap) :
    selects c r = true ↔ encode (r.build (fieldE c) (fieldA c) (fieldW c) (fieldN c)) = c := by
  have ones1 (x : BitVec 1) : x &&& 1#1 = x := BitVec.and_allOnes
  have ones3 (x : BitVec 3) : x &&& 7#3 = x := BitVec.and_allOnes
  have ones4 (x : BitVec 4) : x &&& 15#4 = x := BitVec.and_allOnes
  have ones8 (x : BitVec 8) : x &&& 255#8 = x := BitVec.and_allOnes
  rw [selects, beq_iff_eq, and_eq_iff_fields]
  simp only [opcodeMap, List.mem_cons, List.not_mem_nil, or_false] at hr
  obtain rfl | rfl | rfl | rfl | rfl | rfl | rfl | rfl | rfl | rfl | rfl | rfl := hr
  all_goals
    simp [encode, assemble_eq_iff, ones1, ones3, ones4, ones8, orderBit_big, orderBit_fieldE,
      fieldA, fieldW, fieldN, -BitVec.extractLsb'_toNat]

/-- A command comes from a row the word selects, and from nowhere else (R84). -/
theorem decode_eq_command_iff {c : Word} {i : Instr} : decode c = .command i ↔
    ∃ r ∈ opcodeMap, selects c r = true ∧
      r.build (fieldE c) (fieldA c) (fieldW c) (fieldN c) = i := by
  constructor
  · intro h
    cases hf : opcodeMap.find? (selects c) with
    | none => simp [decode, hf] at h
    | some r =>
      exact ⟨r, List.mem_of_find?_eq_some hf, List.find?_some hf, by simpa [decode, hf] using h⟩
  · rintro ⟨r, hr, hs, rfl⟩
    exact decode_of_selects hr hs

theorem build_wellFormed (c : Word) : ∀ r ∈ opcodeMap,
    (r.build (fieldE c) (fieldA c) (fieldW c) (fieldN c)).WellFormed := by
  have ha : fieldA c < 256 := BitVec.isLt _
  have hw : fieldW c < 256 := BitVec.isLt _
  have hn : fieldN c < 256 := BitVec.isLt _
  simp [opcodeMap, Instr.WellFormed, Instr.wf, fitsField, ha, hw, hn]

/-- Some row makes a well-formed command of its word's fields; the cases are the formats of R82. -/
theorem exists_build_encode {i : Instr} (h : i.WellFormed) : ∃ r ∈ opcodeMap,
    r.build (fieldE (encode i)) (fieldA (encode i)) (fieldW (encode i)) (fieldN (encode i)) = i := by
  cases i with
  | nop | ksched | sboxl | perml => simp [opcodeMap]
  | stblk e => simp [opcodeMap, encode]
  | ldkey e n | enc e n | ldblk e n | rdrk e n | addrk n =>
    have hn : n < 256 := by simpa [Instr.WellFormed, Instr.wf, fitsField] using h
    simp [opcodeMap, encode, Nat.mod_eq_of_lt hn]
  | rol a w | ror a w =>
    obtain ⟨ha, hw⟩ : a < 256 ∧ w < 256 := by
      simpa [Instr.WellFormed, Instr.wf, fitsField] using h
    simp [opcodeMap, encode, Nat.mod_eq_of_lt ha, Nat.mod_eq_of_lt hw]

/-- Settles O1: the command's word selects the row that builds the command from it. -/
theorem decodeOfEncode : Obligations.DecodeOfEncode := by
  intro i h
  obtain ⟨r, hr, hb⟩ := exists_build_encode h
  exact decode_eq_command_iff.2 ⟨r, hr, (selects_iff_encode hr).2 (congrArg encode hb), hb⟩

/-- Settles O2: a word that selects a row is the word of the row's command. -/
theorem encodeOfDecode : Obligations.EncodeOfDecode := by
  intro c i h
  obtain ⟨r, hr, hs, rfl⟩ := decode_eq_command_iff.1 h
  exact ⟨build_wellFormed c r hr, (selects_iff_encode hr).1 hs⟩

/-! ### The opcode map row by row (R83) -/

/-- Row k of the opcode map; its opcode is k. -/
def mapRow (k : Fin 12) : OpRow := opcodeMap[k.1]'k.isLt

theorem mapRow_mem (k : Fin 12) : mapRow k ∈ opcodeMap := List.getElem_mem _

theorem exists_mapRow {r : OpRow} (hr : r ∈ opcodeMap) : ∃ k, mapRow k = r := by
  obtain ⟨k, hk, rfl⟩ := List.getElem_of_mem hr
  exact ⟨⟨k, hk⟩, rfl⟩

theorem decode_mapRow {c : Word} (k : Fin 12) (h : c &&& (mapRow k).mask = (mapRow k).pattern) :
    decode c = .command ((mapRow k).build (fieldE c) (fieldA c) (fieldW c) (fieldN c)) :=
  decode_of_selects (mapRow_mem k) (beq_iff_eq.2 h)

/-- Settles O3: each row by `decode_mapRow`, and the words of no row by `decode_of_selects_none`. -/
theorem decodeFollowsOpcodeMap : Obligations.DecodeFollowsOpcodeMap := by
  refine fun c => ⟨decode_mapRow 0, decode_mapRow 1, decode_mapRow 2, decode_mapRow 3,
    decode_mapRow 4, decode_mapRow 5, decode_mapRow 6, decode_mapRow 7, decode_mapRow 8,
    decode_mapRow 9, decode_mapRow 10, decode_mapRow 11, ?_⟩
  intros
  refine ⟨_, decode_of_selects_none ?_⟩
  simp only [opcodeMap, List.forall_mem_cons, selects, beq_eq_false_iff_ne]
  simp [*]

/-! ### Reserved bits (R85, R86)

The bits a format of R82 does not list are zero in every word of that format. -/

section
variable (op : BitVec 4) (e : ByteOrder) (a w n : Nat)

theorem bits_assemble_toNat (start len : Nat) :
    ((assemble op e a w n).extractLsb' start len).toNat =
      (op.toNat * 2 ^ 28 + (orderBit e).toNat * 2 ^ 24 + a % 256 * 2 ^ 16 + w % 256 * 2 ^ 8 +
        n % 256) / 2 ^ start % 2 ^ len := by
  rw [BitVec.extractLsb'_toNat, assemble_toNat, Nat.shiftRight_eq_div_pow]

theorem unlisted_formatZ : (assemble op .big 0 0 0).extractLsb' 0 25 = 0#25 := by
  simp only [BitVec.toNat_eq, bits_assemble_toNat, BitVec.toNat_ofNat, orderBit_big]
  omega

theorem unlisted_formatL : (assemble op e 0 0 n).extractLsb' 8 16 = 0#16 := by
  simp only [BitVec.toNat_eq, bits_assemble_toNat, BitVec.toNat_ofNat]
  omega

theorem unlisted_formatS : (assemble op e 0 0 0).extractLsb' 0 24 = 0#24 := by
  simp only [BitVec.toNat_eq, bits_assemble_toNat, BitVec.toNat_ofNat]
  omega

theorem unlisted_formatX : (assemble op .big 0 0 n).extractLsb' 8 17 = 0#17 := by
  simp only [BitVec.toNat_eq, bits_assemble_toNat, BitVec.toNat_ofNat, orderBit_big]
  omega

theorem unlisted_formatR : (assemble op .big a w 0).extractLsb' 24 1 = 0#1 ∧
    (assemble op .big a w 0).extractLsb' 0 8 = 0#8 := by
  obtain ⟨-, -, he, -, -, hn⟩ := (assemble_eq_iff op .big a w 0).1 rfl
  exact ⟨he, hn⟩

end

/-- Settles O4: a legal word is its command's word, whose opcode is defined and whose unlisted bits are
zero. -/
theorem reservedBitsAreIllegal : Obligations.ReservedBitsAreIllegal := by
  intro c op h
  cases hd : decode c with
  | illegal why => exact ⟨why, rfl⟩
  | command i =>
    obtain ⟨-, rfl⟩ := encodeOfDecode c i hd
    have hop op e a w n : (assemble op e a w n).extractLsb' 28 4 = op := fieldOp_assemble ..
    have hz op e a w n : (assemble op e a w n).extractLsb' 25 3 = 0#3 := fieldZ_assemble ..
    cases i with
    | nop | ksched | sboxl | perml => simp [op, encode, hop, hz, unlisted_formatZ] at h
    | ldkey | enc | ldblk | rdrk => simp [op, encode, hop, hz, unlisted_formatL] at h
    | stblk => simp [op, encode, hop, hz, unlisted_formatS] at h
    | addrk => simp [op, encode, hop, hz, unlisted_formatX] at h
    | rol | ror => simp [op, encode, hop, hz, unlisted_formatR] at h

/-! ### The count of legal words (R87) -/

/-- A vector with the bits under `mask` fixed is a free choice of the others. -/
def freeBits {w : Nat} (mask pattern : BitVec w) (h : pattern &&& mask = pattern) :
    {v : BitVec w // v &&& mask = pattern} ≃ ({j : Fin w // mask[j.1] = false} → Bool) where
  toFun v j := v.1[j.1.1]
  invFun f :=
    ⟨BitVec.ofFnLE fun j => if hj : mask[j.1] = false then f ⟨j, hj⟩ else pattern[j.1], by
      ext i hi
      have hp : (pattern[i] && mask[i]) = pattern[i] := by rw [← BitVec.getElem_and, h]
      by_cases hj : mask[i] = false <;> simp_all⟩
  left_inv := by
    rintro ⟨v, rfl⟩
    ext i hi
    by_cases hj : mask[i] = false <;> simp_all
  right_inv f := by
    ext ⟨j, hj⟩
    simp [hj]

theorem card_and_eq {w : Nat} {mask pattern : BitVec w} (h : pattern &&& mask = pattern) :
    Nat.card {v : BitVec w // v &&& mask = pattern} =
      2 ^ Nat.card {j : Fin w // mask[j.1] = false} := by
  rw [Nat.card_congr (freeBits mask pattern h), Nat.card_fun, Nat.card_eq_fintype_card,
    Fintype.card_bool]

theorem legal_iff_mapRow {c : Word} : (∃ i, decode c = .command i) ↔
    ∃ k, c &&& (mapRow k).mask = (mapRow k).pattern := by
  constructor
  · rintro ⟨i, h⟩
    obtain ⟨r, hr, hs, -⟩ := decode_eq_command_iff.1 h
    obtain ⟨k, rfl⟩ := exists_mapRow hr
    exact ⟨k, beq_iff_eq.1 hs⟩
  · rintro ⟨k, h⟩
    exact ⟨_, decode_mapRow k h⟩

theorem mapRow_op : ∀ k : Fin 12, (mapRow k).pattern.extractLsb' 28 4 = BitVec.ofNat 4 k := by
  decide

theorem mapRow_unique {c : Word} {k l : Fin 12} (hk : c &&& (mapRow k).mask = (mapRow k).pattern)
    (hl : c &&& (mapRow l).mask = (mapRow l).pattern) : k = l := by
  have hop : BitVec.ofNat 4 k = BitVec.ofNat 4 l := by
    rw [← mapRow_op, ← mapRow_op, ← fieldOp_of_selects (mapRow_mem k) (beq_iff_eq.2 hk),
      ← fieldOp_of_selects (mapRow_mem l) (beq_iff_eq.2 hl)]
  have hk16 := congrArg BitVec.toNat hop
  simp only [BitVec.toNat_ofNat] at hk16
  omega

/-- The word of a row, as a legal word. -/
def legalOfRow (x : Σ k, {c : Word // c &&& (mapRow k).mask = (mapRow k).pattern}) :
    {c : Word // ∃ i, decode c = .command i} :=
  ⟨x.2, legal_iff_mapRow.2 ⟨x.1, x.2.2⟩⟩

/-- Every legal word belongs to exactly one row (R83, R84). -/
theorem legalOfRow_bijective : Function.Bijective legalOfRow := by
  constructor
  · rintro ⟨k, c, hk⟩ ⟨l, d, hl⟩ h
    obtain rfl : c = d := congrArg Subtype.val h
    obtain rfl := mapRow_unique hk hl
    rfl
  · rintro ⟨c, hc⟩
    obtain ⟨k, hk⟩ := legal_iff_mapRow.1 hc
    exact ⟨⟨k, c, hk⟩, rfl⟩

/-- Settles O5: the sum over the twelve rows of 2 to the number of bits the mask leaves free. -/
theorem legalWordCount : Obligations.LegalWordCount := by
  have covered : ∀ k, (mapRow k).pattern &&& (mapRow k).mask = (mapRow k).pattern := by decide
  unfold Obligations.LegalWordCount
  rw [← Nat.card_eq_of_bijective _ legalOfRow_bijective, Nat.card_sigma]
  simp only [card_and_eq (covered _), Nat.card_eq_fintype_card]
  decide

end Sys2Proof.Laws

namespace Sys2Proof.Machine

/-! ## The rotations (R104 to R106)

Bit j of `ror` is bit j + b of its operand, counted modulo the width. So right rotations compose by
adding their amounts, and `rol` is the inverse of `ror`; the other laws follow from these two. -/

/-- The sum of two positions below w, counted modulo w. -/
theorem add_mod_width {w i r : Nat} (hi : i < w) (hr : r < w) :
    (i + r) % w = if w ≤ i + r then i + r - w else i + r := by
  rw [Nat.add_mod_eq_ite, Nat.mod_eq_of_lt hi, Nat.mod_eq_of_lt hr]

/-- An amount and what it lacks to the width make a whole turn. -/
theorem add_complement_mod {w : Nat} (hw : 0 < w) (b : Nat) : (b + (w - b % w)) % w = 0 := by
  have hr : b % w < w := Nat.mod_lt b hw
  have whole : b % w + (w - b % w) = w := by omega
  rw [← Nat.mod_add_mod, whole, Nat.mod_self]

section
variable {w : Nat} (hw : 0 < w) (v : BitVec w) (b c : Nat)

/-- R105, bit by bit. -/
theorem getLsbD_ror {j : Nat} (hj : j < w) :
    (ror w hw v b).getLsbD j = v.getLsbD ((j + b % w) % w) := by
  have hr : b % w < w := Nat.mod_lt b hw
  rw [ror_eq_rotateRight, BitVec.getLsbD_rotateRight, add_mod_width hj hr]
  by_cases wrap : w ≤ j + b % w
  · have high : ¬ j < w - b % w := by omega
    have index : j - (w - b % w) = j + b % w - w := by omega
    simp [wrap, high, hj, index]
  · have low : j < w - b % w := by omega
    simp [wrap, low, Nat.add_comm]

/-- R104, bit by bit. -/
theorem getLsbD_rol {j : Nat} (hj : j < w) :
    (rol w hw v b).getLsbD ((j + b % w) % w) = v.getLsbD j := by
  have hr : b % w < w := Nat.mod_lt b hw
  rw [rol_eq_rotateLeft, BitVec.getLsbD_rotateLeft, add_mod_width hj hr]
  by_cases wrap : w ≤ j + b % w
  · have low : j + b % w - w < b % w := by omega
    have index : w - b % w + (j + b % w - w) = j := by omega
    simp [wrap, low, index]
  · have fits : j + b % w < w := by omega
    simp [wrap, fits]

theorem rol_of_mod_eq_zero (h : b % w = 0) : rol w hw v b = v := if_pos h

theorem ror_of_mod_eq_zero (h : b % w = 0) : ror w hw v b = v := if_pos h

theorem ror_rol : ror w hw (rol w hw v b) b = v := by
  apply BitVec.eq_of_getLsbD_eq
  intro j hj
  rw [getLsbD_ror hw _ b hj, getLsbD_rol hw v b hj]

theorem ror_ror : ror w hw (ror w hw v b) c = ror w hw v (b + c) := by
  apply BitVec.eq_of_getLsbD_eq
  intro j hj
  have index : ((j + c % w) % w + b % w) % w = (j + (b + c) % w) % w := by
    simp [Nat.add_assoc, Nat.add_comm b c]
  rw [getLsbD_ror hw _ c hj, getLsbD_ror hw v b (Nat.mod_lt _ hw), index, getLsbD_ror hw v _ hj]

theorem ror_ror_complement : ror w hw (ror w hw v b) (w - b % w) = v := by
  rw [ror_ror, ror_of_mod_eq_zero hw v _ (add_complement_mod hw b)]

theorem ror_injective : Function.Injective (fun x => ror w hw x b) :=
  Function.LeftInverse.injective (g := fun x => ror w hw x (w - b % w))
    fun x => ror_ror_complement hw x b

theorem rol_ror : rol w hw (ror w hw v b) b = v :=
  ror_injective hw b (ror_rol hw (ror w hw v b) b)

/-- R106: a right rotation is the left rotation by the complement of the amount. -/
theorem ror_eq_rol : ror w hw v b = rol w hw v (w - b % w) :=
  ror_injective hw (w - b % w) ((ror_ror_complement hw v b).trans (ror_rol hw v _).symm)

/-- R106: left rotations add. -/
theorem rol_rol : rol w hw (rol w hw v b) c = rol w hw v (b + c) := by
  apply ror_injective hw (b + c)
  calc ror w hw (rol w hw (rol w hw v b) c) (b + c)
      = ror w hw (ror w hw (rol w hw (rol w hw v b) c) c) b := by rw [ror_ror, Nat.add_comm]
    _ = v := by rw [ror_rol, ror_rol]
    _ = ror w hw (rol w hw v (b + c)) (b + c) := (ror_rol hw v _).symm

theorem rol_bijective : Function.Bijective (fun x => rol w hw x b) :=
  Function.bijective_iff_has_inverse.2
    ⟨fun x => ror w hw x b, fun x => ror_rol hw x b, fun x => rol_ror hw x b⟩

theorem ror_bijective : Function.Bijective (fun x => ror w hw x b) :=
  Function.bijective_iff_has_inverse.2
    ⟨fun x => rol w hw x b, fun x => rol_ror hw x b, fun x => ror_rol hw x b⟩

/-- A left rotation takes the 1 bits of v to 1 bits of the result, no two to the same. -/
theorem ones_le_ones_rol : ones v ≤ ones (rol w hw v b) := by
  refine Finset.card_le_card_of_injOn (fun j => (j + b % w) % w) ?_ ?_
  · intro j hj
    simp only [Finset.mem_coe, Finset.mem_filter, Finset.mem_range] at hj ⊢
    obtain ⟨hj, bit⟩ := hj
    exact ⟨Nat.mod_lt _ hw, (getLsbD_rol hw v b hj).trans bit⟩
  · intro i hi j hj same
    simp only [Finset.mem_coe, Finset.mem_filter, Finset.mem_range] at hi hj
    exact (Nat.ModEq.add_right_cancel' _ same).eq_of_lt_of_lt hi.1 hj.1

/-- No bit is lost: the rotation back by the complement loses none either. -/
theorem ones_rol : ones (rol w hw v b) = ones v := by
  apply Nat.le_antisymm _ (ones_le_ones_rol hw v b)
  calc ones (rol w hw v b)
      ≤ ones (rol w hw (rol w hw v b) (w - b % w)) := ones_le_ones_rol hw _ _
    _ = ones v := by rw [← ror_eq_rol, ror_rol]

end

/-- Settles O19. -/
theorem rotateLeftMovesBits : Obligations.RotateLeftMovesBits :=
  fun _ hw v b => ⟨fun _ hj => getLsbD_rol hw v b hj, rol_of_mod_eq_zero hw v b⟩

/-- Settles O20. -/
theorem rotateRightMovesBits : Obligations.RotateRightMovesBits :=
  fun _ hw v b => ⟨fun _ hj => getLsbD_ror hw v b hj, ror_of_mod_eq_zero hw v b⟩

/-- Settles O21, law by law; `ror` keeps the number of 1 bits as it is a left rotation. -/
theorem rotationLaws : Obligations.RotationLaws := by
  intro w hw v b c
  exact ⟨ror_eq_rol hw v b, ror_rol hw v b, rol_ror hw v b, rol_rol hw v b c, rol_bijective hw b,
    ror_bijective hw b, ones_rol hw v b, by rw [ror_eq_rol, ones_rol]⟩

/-! ## ROL and ROR (R107 to R109) -/

/-- The common step as an update of PHASE (R172, R173). -/
theorem takeWord_eq (m : State) :
    takeWord m = { m with phase := if m.phase = .complete then .ready else m.phase } :=
  congrArg m.setPhase (leaveComplete_eq m.phase)

/-- The word of a command of the rotation format (R82, R90). -/
theorem assemble_rotation_toNat (op : BitVec 4) {bits width : Nat} (hb : bits < 256)
    (hw : width < 256) : (assemble op .big bits width 0).toNat =
      op.toNat * 2 ^ 28 + bits * 2 ^ 16 + width * 2 ^ 8 := by
  rw [Laws.assemble_toNat, Laws.orderBit_big, Nat.mod_eq_of_lt hb, Nat.mod_eq_of_lt hw]
  simp

/-- UR takes every bit of a rotation of at most 80 bits, and 0 above them (R107, R109). -/
theorem getLsbD_zeroExtended {width : Nat} (le : width ≤ 80) (x : BitVec width) (j : Nat) :
    (x.setWidth 80).getLsbD j = x.getLsbD j := by
  rw [BitVec.getLsbD_setWidth]
  by_cases hj : j < 80
  · simp [hj]
  · simp [hj, BitVec.getLsbD_of_ge x j (by omega)]

/-- A rotation that completes changes only UR, PHASE and ERR (R107, R109, R173). -/
theorem completed_setUr_eq (u : KeyReg) (m : State) :
    ((takeWord m).setUr u).setErr .noError = { m with
      ur := u, phase := if m.phase = .complete then .ready else m.phase, err := .noError } := by
  rw [takeWord_eq]
  rfl

/-- A refused command changes only ERR and PHASE (R206). -/
theorem refusedWith_eq (e : Err) (m : State) : refusedWith e m = { m with
    err := e, phase := if m.phase = .complete then .ready else m.phase } := by
  rw [refusedWith, takeWord_eq]
  rfl

/-- Settles O46: bit by bit from `getLsbD_rol`. -/
theorem rolRotatesUr : Obligations.RolRotatesUr := by
  intro bits width m
  refine ⟨assemble_rotation_toNat 0xA, fun pos le fits => ?_, fun bad => ?_⟩
  · have good : ¬ badRotation width m := by omega
    rw [exec_rol, dif_neg good, completed_setUr_eq]
    refine ⟨_, rfl, fun j hj => ?_, fun j hj => ?_, rfl⟩
    · rw [getLsbD_zeroExtended le, getLsbD_rol pos _ bits hj]
      simp [hj]
    · rw [getLsbD_zeroExtended le, BitVec.getLsbD_of_ge _ j hj]
  · rw [exec_rol, dif_pos bad, refusedWith_eq]

/-- Settles O47: bit by bit from `getLsbD_ror`. -/
theorem rorRotatesUr : Obligations.RorRotatesUr := by
  intro bits width m
  refine ⟨assemble_rotation_toNat 0xB, fun pos le fits => ?_, fun bad => ?_⟩
  · have good : ¬ badRotation width m := by omega
    rw [exec_ror, dif_neg good, completed_setUr_eq]
    refine ⟨_, rfl, fun j hj => ?_, fun j hj => ?_, rfl⟩
    · rw [getLsbD_zeroExtended le, getLsbD_ror pos _ bits hj]
      simp [Nat.mod_lt _ pos]
    · rw [getLsbD_zeroExtended le, BitVec.getLsbD_of_ge _ j hj]
  · rw [exec_ror, dif_pos bad, refusedWith_eq]

end Sys2Proof.Machine

namespace Sys2Proof.Machine

/-! ## LDKEY (R121, R122) -/

/-- Bit E of a word weighs what its byte order does (R56, R81). -/
theorem orderBit_mul_eq_orderWeight (e : ByteOrder) :
    (orderBit e).toNat * 2 ^ 24 = orderWeight e := by
  cases e <;> rfl

/-- The word of a command whose operands are a byte order and a number (R82, R90). -/
theorem assemble_ordered_toNat (op : BitVec 4) (e : ByteOrder) {n : Nat} (hn : n < 256) :
    (assemble op e 0 0 n).toNat = op.toNat * 2 ^ 28 + orderWeight e + n := by
  rw [Laws.assemble_toNat, orderBit_mul_eq_orderWeight, Nat.mod_eq_of_lt hn]
  simp

section
variable {n : Nat} (B : Vector Byte n) (j : Fin n)

/-- Where `big` puts byte j of a sequence in its integer (R57, R58). -/
theorem b2i_big_byte : (b2i (8 * n) .big B).extractLsb' (8 * (n - 1 - j)) 8 = B[j] := by
  obtain ⟨byte, -, inverse, -⟩ := integerToBytesInverts n (b2i (8 * n) .big B) B .big
  rw [← byte j, inverse]

/-- Where `little` puts byte j of a sequence in its integer (R57, R58). -/
theorem b2i_little_byte : (b2i (8 * n) .little B).extractLsb' (8 * j) 8 = B[j] := by
  obtain ⟨-, byte, inverse, -⟩ := integerToBytesInverts n (b2i (8 * n) .little B) B .little
  rw [← byte j, inverse]

end

/-- An LDKEY that completes changes only KEY, PHASE and ERR (R121). -/
theorem completed_setKey_eq (k : KeyReg) (m : State) :
    (((takeWord m).setKey k).setPhase .initialized).setErr .noError =
      { m with key := k, phase := .initialized, err := .noError } := rfl

/-- Settles O37: KEY is the integer of KIN, whose bytes under either order are those of KIN. -/
theorem ldkeyBindsTheKey : Obligations.LdkeyBindsTheKey := by
  intro e len m
  refine ⟨assemble_ordered_toNat 0x1 e, fun accepted => ?_, fun refused => ?_⟩
  · rw [exec_ldkey, if_pos accepted, completed_setKey_eq]
    refine ⟨_, rfl, ?_, ?_, rfl⟩
    · rintro rfl
      exact b2i_big_byte m.kin
    · rintro rfl
      exact b2i_little_byte m.kin
  · rw [exec_ldkey, if_neg refused, refusedWith_eq]

end Sys2Proof.Machine

namespace Sys2Proof.Machine

/-! ## The key schedule (R132 to R135) -/

/-- R132, bit by bit. -/
theorem getLsbD_roundkey (kr : KeyReg) {j : Nat} (hj : j < 64) :
    (roundkey kr).getLsbD j = kr.getLsbD (j + 16) := by
  simp [roundkey, hj, Nat.add_comm]

/-- Bit j of what an update XORs into the register: the counter's five bits stand at 19..15 (R133). -/
theorem getLsbD_counter {i : Nat} (le : i ≤ 31) {j : Nat} (hj : j < 80) :
    (BitVec.ofNat 80 i <<< Config.ksCtrLo).getLsbD j =
      (decide (15 ≤ j ∧ j ≤ 19) && i.testBit (j - 15)) := by
  have fits : j - 15 < 80 := by omega
  rw [Config.ksCtrLo, BitVec.getLsbD_shiftLeft, BitVec.getLsbD_ofNat]
  by_cases high : j ≤ 19
  · simp [high, hj, fits, ← decide_not]
  · have small : i < 2 ^ (j - 15) :=
      calc i < 2 ^ 5 := Nat.lt_succ_of_le le
        _ ≤ 2 ^ (j - 15) := Nat.pow_le_pow_right (by decide) (by omega)
    simp [Nat.testBit_lt_two_pow small]

section
variable (kr : KeyReg) (i : Nat) (range : 1 ≤ i ∧ i ≤ 31)

/-- The nibble that rotates to the top is bits 18..15 (R133). -/
theorem extractLsb'_ror_ksRot :
    (ror 80 (by decide) kr Config.ksRot).extractLsb' 76 4 = kr.extractLsb' 15 4 := by
  apply BitVec.eq_of_getLsbD_eq
  intro j hj
  have index : (76 + j + Config.ksRot % 80) % 80 = 15 + j := by
    show (76 + j + 19) % 80 = 15 + j
    omega
  simp only [BitVec.getLsbD_extractLsb', hj, getLsbD_ror _ _ _ (show 76 + j < 80 by omega), index]

/-- R133, the top nibble: the counter does not reach it. -/
theorem ksupdate_top :
    (ksupdate kr i range).extractLsb' 76 4 = sbox (kr.extractLsb' 15 4) := by
  have untouched : (BitVec.ofNat 80 i <<< Config.ksCtrLo).extractLsb' 76 4 = 0#4 := by
    apply BitVec.eq_of_getLsbD_eq
    intro j hj
    have above : ¬ 76 + j ≤ 19 := by omega
    rw [BitVec.getLsbD_extractLsb', getLsbD_counter range.2 (by omega)]
    simp [above]
  simp only [ksupdate, BitVec.extractLsb'_xor, untouched, extractLsb'_ror_ksRot,
    BitVec.extractLsb'_append_eq_left, BitVec.xor_zero]

/-- R133, below the top nibble. -/
theorem getLsbD_ksupdate {j : Nat} (hj : j < 76) :
    (ksupdate kr i range).getLsbD j =
      (kr.getLsbD ((j + 19) % 80) ^^ (decide (15 ≤ j ∧ j ≤ 19) && i.testBit (j - 15))) := by
  have fits : j < 80 := by omega
  simp only [ksupdate, BitVec.getLsbD_xor, getLsbD_counter range.2 fits, BitVec.getLsbD_append, hj,
    if_true, BitVec.getLsbD_extractLsb', Nat.zero_add, getLsbD_ror _ _ _ fits]
  simp [Config.ksRot]

end

/-- Settles O29. -/
theorem ksupdateBits : Obligations.KsupdateBits :=
  ⟨fun kr i range => ⟨ksupdate_top kr i range, fun _ hj => getLsbD_ksupdate kr i range hj⟩,
    fun kr _ hj => getLsbD_roundkey kr hj⟩

/-- Register i of the chain of R134; past update 31 it stays. -/
def chainReg (key : KeyReg) (i : Nat) : KeyReg := krAfter key (min i 31) (Nat.min_le_right i 31)

theorem chainReg_eq (key : KeyReg) {i : Nat} (h : i ≤ 31) : chainReg key i = krAfter key i h := by
  simp only [chainReg, Nat.min_eq_left h]

/-- Settles O31: the chain is `krAfter`. -/
theorem keyscheduleFollowsTheChain : Obligations.KeyscheduleFollowsTheChain := by
  refine fun key => ⟨chainReg key, rfl, roundKeyAt_keyschedule key 1 (by decide), ?_, ?_⟩
  · rintro (_ | i) ⟨pos, le⟩
    · cases pos
    · rw [chainReg_eq key le, roundKeyAt_keyschedule]
      refine ⟨?_, rfl⟩
      simp only [Nat.add_sub_cancel, chainReg_eq key (Nat.le_of_succ_le le), krAfter_succ]
  · rintro m rfl
    rfl

/-! ## Bijections (R135, R180)

Each part of an update and of a round loses nothing: equal results come from equal operands. On
bit vectors of one width that makes a bijection. -/

theorem sbox_injective : Function.Injective sbox := by
  intro x y
  revert x y
  decide

/-- R152, nibble by nibble. -/
theorem nibble_sboxlayer (s : Block) {j : Nat} (hj : j < 16) :
    nibble (sboxlayer s) j = sbox (nibble s j) := by
  apply BitVec.eq_of_getLsbD_eq
  intro r hr
  have hi : 4 * j + r < 64 := by omega
  have quotient : (4 * j + r) / 4 = j := by omega
  have remainder : (4 * j + r) % 4 = r := by omega
  rw [nibble, BitVec.getLsbD_extractLsb', sboxlayer, sboxNibbles_bit s 16 _ hi, quotient, remainder]
  simp [hr, hi]

/-- R154, bit by bit. -/
theorem getLsbD_player (s : Block) {k r : Nat} (hk : k < 16) (hr : r < 4) :
    (player s).getLsbD (16 * r + k) = s.getLsbD (4 * k + r) := by
  have source : 4 * ((16 * r + k) % 16) + (16 * r + k) / 16 = 4 * k + r := by omega
  have inside : 4 * k + r < 64 := by omega
  rw [player, movedBits_bit s 64 (Nat.le_refl 64) _ (by omega), source]
  simp [inside]

/-- Two blocks with the same 16 nibbles are the same. -/
theorem block_eq_of_nibbles {s s' : Block} (h : ∀ j < 16, nibble s j = nibble s' j) : s = s' := by
  have bit (s : Block) (i : Nat) : s.getLsbD i = (nibble s (i / 4)).getLsbD (i % 4) := by
    rw [nibble, BitVec.getLsbD_extractLsb', Nat.div_add_mod]
    simp [Nat.mod_lt]
  apply BitVec.eq_of_getLsbD_eq
  intro i hi
  rw [bit s, bit s', h (i / 4) (by omega)]

theorem sboxlayer_injective : Function.Injective sboxlayer := by
  intro s s' h
  refine block_eq_of_nibbles fun j hj => sbox_injective ?_
  rw [← nibble_sboxlayer s hj, ← nibble_sboxlayer s' hj, h]

theorem player_injective : Function.Injective player := by
  intro s s' h
  apply BitVec.eq_of_getLsbD_eq
  intro p hp
  have hk : p / 4 < 16 := by omega
  have hr : p % 4 < 4 := Nat.mod_lt p (by decide)
  rw [← Nat.div_add_mod p 4, ← getLsbD_player s hk hr, ← getLsbD_player s' hk hr, h]

theorem addrk_injective (k : Block) : Function.Injective (fun s => addrk s k) :=
  fun _ _ => (BitVec.xor_left_inj k).1

/-- A register bit goes through the box when it is one of 18..15, and else to a bit of its own below the
top nibble. -/
theorem ksupdate_injective (i : Nat) (range : 1 ≤ i ∧ i ≤ 31) :
    Function.Injective (fun kr => ksupdate kr i range) := by
  intro kr kr' (h : ksupdate kr i range = ksupdate kr' i range)
  have boxed : kr.extractLsb' 15 4 = kr'.extractLsb' 15 4 :=
    sbox_injective (by rw [← ksupdate_top kr i range, ← ksupdate_top kr' i range, h])
  have moved (j : Nat) (hj : j < 76) : kr.getLsbD ((j + 19) % 80) = kr'.getLsbD ((j + 19) % 80) := by
    have same := congrArg (·.getLsbD j) h
    simpa only [getLsbD_ksupdate _ i range hj, Bool.xor_left_inj] using same
  apply BitVec.eq_of_getLsbD_eq
  intro p hp
  by_cases inNibble : 15 ≤ p ∧ p < 19
  · have same := congrArg (·.getLsbD (p - 15)) boxed
    have low : p - 15 < 4 := by omega
    have index : 15 + (p - 15) = p := by omega
    simpa [low, index] using same
  · have index : ((p + 61) % 80 + 19) % 80 = p := by omega
    exact index ▸ moved ((p + 61) % 80) (by omega)

/-- The 31 full rounds lose nothing. -/
theorem blockAfter_injective (rk : Vector Block 32) (i : Nat) (h : i ≤ 31) :
    Function.Injective (fun s => blockAfter rk s i (by omega)) := by
  induction i with
  | zero => exact fun _ _ => id
  | succ i ih =>
    simp only [blockAfter_full _ _ i h]
    exact player_injective.comp <| sboxlayer_injective.comp <|
      (addrk_injective _).comp (ih (by omega))

theorem encryptInt_injective (rk : Vector Block 32) : Function.Injective (encryptInt rk) := by
  intro s s' h
  rw [encryptInt_eq, encryptInt_eq] at h
  exact blockAfter_injective rk 31 (by decide) (addrk_injective _ h)

/-- Settles O30. -/
theorem updateAndEncryptionAreBijective : Obligations.UpdateAndEncryptionAreBijective :=
  ⟨fun i range => Finite.injective_iff_bijective.1 (ksupdate_injective i range),
    fun rk => Finite.injective_iff_bijective.1 (encryptInt_injective rk)⟩

/-! ## KSCHED and RDRK (R136 to R138) -/

/-- In EMPTY the common step changes nothing (R172). -/
theorem refusedWith_of_empty (e : Err) {m : State} (h : m.phase = .empty) :
    refusedWith e m = { m with err := e } := by
  rw [refusedWith_eq, h]
  rfl

/-- With a key bound and the schedule valid where it must be, a command works in READY, on the schedule
of KEY (R137, R172). -/
theorem ensureSchedule_takeWord_eq {m : State} (valid : ScheduleValid m) (bound : m.phase ≠ .empty) :
    ensureSchedule (takeWord m) = { m with
      kr := finalKr m.key, rk := keyschedule m.key, phase := .ready } := by
  by_cases hp : m.phase = .initialized
  · rw [ensureSchedule_initialized (by simpa using hp)]
    rfl
  · have generated := ready_or_complete bound hp
    obtain ⟨rk, kr⟩ := valid generated
    rw [ensureSchedule_of_ne (by simpa using hp), takeWord, (leaveComplete_eq_ready _).2 generated,
      ← rk, ← kr]
    rfl

/-- Settles O38. -/
theorem kschedGeneratesTheSchedule : Obligations.KschedGeneratesTheSchedule := by
  refine ⟨by decide, fun m => ⟨fun bound => ?_, fun empty => ?_⟩⟩
  · rw [exec_ksched, if_neg bound]
    rfl
  · rw [exec_ksched, if_pos empty, refusedWith_of_empty _ empty]

/-- Settles O45: the round key of the schedule of KEY, byte by byte. -/
theorem rdrkCopiesTheRoundKey : Obligations.RdrkCopiesTheRoundKey := by
  intro e n m
  refine ⟨assemble_ordered_toNat 0x9 e, fun hn bound valid => ?_, fun empty => ?_,
    fun bound bad => ?_⟩
  · rw [exec_rdrk, if_neg bound, dif_pos hn, ensureSchedule_takeWord_eq valid bound]
    refine ⟨_, rfl, ?_, ?_, rfl⟩
    · rintro rfl j
      exact i2b_big_get _ 8 j j.isLt
    · rintro rfl j
      exact i2b_little_get _ 8 j j.isLt
  · rw [exec_rdrk, if_pos empty, refusedWith_of_empty _ empty]
  · rw [exec_rdrk, if_neg bound, dif_neg (by omega), refusedWith_eq]

end Sys2Proof.Machine

namespace Sys2Proof.Machine

/-! ## The boxes and layers (R150 to R155) -/

/-- R153 with the position split into its nibble and the bit in it. -/
theorem pbox_split {k r : Nat} (hr : r < 4) : pbox (4 * k + r) = 16 * r + k := by
  unfold pbox
  omega

theorem pbox_lt {p : Nat} (hp : p < 64) : pbox p < 64 := by
  unfold pbox
  omega

/-- pbox takes three turns to come round: it multiplies by 16 modulo 63, and 16^3 is 1 there (R153). -/
theorem pbox_pbox_pbox {p : Nat} (hp : p < 64) : pbox (pbox (pbox p)) = p := by
  unfold pbox
  omega

/-- R154 for a position that is not split. -/
theorem getLsbD_player_pbox (s : Block) {p : Nat} (hp : p < 64) :
    (player s).getLsbD (pbox p) = s.getLsbD p := by
  have hr : p % 4 < 4 := Nat.mod_lt p (by decide)
  rw [pbox, getLsbD_player s (by omega) hr, Nat.div_add_mod]

theorem player_player_player (s : Block) : player (player (player s)) = s := by
  apply BitVec.eq_of_getLsbD_eq
  intro p hp
  calc (player (player (player s))).getLsbD p
      = (player (player (player s))).getLsbD (pbox (pbox (pbox p))) := by rw [pbox_pbox_pbox hp]
    _ = s.getLsbD p := by
      rw [getLsbD_player_pbox _ (pbox_lt (pbox_lt hp)), getLsbD_player_pbox _ (pbox_lt hp),
        getLsbD_player_pbox _ hp]

/-- Settles O22. -/
theorem sboxTableIsAPermutation : Obligations.SboxTableIsAPermutation :=
  ⟨by decide, Finite.injective_iff_bijective.1 sbox_injective⟩

/-- Settles O24: pbox applied twice is the inverse. -/
theorem pboxIsAPermutation : Obligations.PboxIsAPermutation := by
  refine ⟨fun k r _ hr => pbox_split hr, fun p hp => pbox_lt hp, fun q hq => ?_⟩
  refine ⟨pbox (pbox q), pbox_lt (pbox_lt hq), pbox_pbox_pbox hq, ?_⟩
  rintro p' hp' rfl
  exact (pbox_pbox_pbox hp').symm

/-- Settles O23. -/
theorem sboxlayerActsOnNibbles : Obligations.SboxlayerActsOnNibbles :=
  fun s _ hj => nibble_sboxlayer s hj

/-- Settles O26. -/
theorem playerMovesBits : Obligations.PlayerMovesBits :=
  fun s _ _ hk hr => getLsbD_player s hk hr

/-! ## SBOXL, PERML and ADDRK (R157 to R159) -/

/-- A layer command changes only S, PHASE and ERR (R157, R158, R173). -/
theorem completed_setS_eq (b : Block) (m : State) :
    ((takeWord m).setS b).setErr .noError = { m with
      s := b, phase := if m.phase = .complete then .ready else m.phase, err := .noError } := by
  rw [takeWord_eq]
  rfl

/-- Settles O42. -/
theorem sboxlSubstitutesNibbles : Obligations.SboxlSubstitutesNibbles := by
  refine ⟨by decide, fun m => ?_⟩
  rw [exec_sboxl, completed_setS_eq]
  exact ⟨_, rfl, sboxlayerActsOnNibbles m.s, rfl⟩

/-- Settles O43. -/
theorem permlMovesBits : Obligations.PermlMovesBits := by
  refine ⟨by decide, fun m => ?_⟩
  rw [exec_perml, completed_setS_eq]
  exact ⟨_, rfl, playerMovesBits m.s, rfl⟩

/-- Settles O44: the round key is taken from the schedule of KEY. -/
theorem addrkXorsTheRoundKey : Obligations.AddrkXorsTheRoundKey := by
  intro n m
  refine ⟨assemble_ordered_toNat 0x6 .big, fun hn bound valid => ?_, fun empty => ?_,
    fun bound bad => ?_⟩
  · rw [exec_addrk, if_neg bound, dif_pos hn, ensureSchedule_takeWord_eq valid bound]
    rfl
  · rw [exec_addrk, if_pos empty, refusedWith_of_empty _ empty]
  · rw [exec_addrk, if_neg bound, dif_neg (by omega), refusedWith_eq]

/-! ## How often a layer command comes round (R157, R158) -/

section
open Function

/-- The box runs through 0, C, 4, 9, E, 1, 5 and back (R150). -/
theorem minimalPeriod_sbox_zero : minimalPeriod sbox 0x0 = 7 :=
  have : Fact (Nat.Prime 7) := ⟨by decide⟩
  minimalPeriod_eq_prime (by decide) (by decide)

/-- The box runs through 2, 6, A, F and back (R150). -/
theorem minimalPeriod_sbox_two : minimalPeriod sbox 0x2 = 4 :=
  minimalPeriod_eq_prime_pow (p := 2) (k := 1) (by decide) (by decide)

/-- The box runs through 3, B, 8 and back (R150). -/
theorem minimalPeriod_sbox_three : minimalPeriod sbox 0x3 = 3 :=
  minimalPeriod_eq_prime (by decide) (by decide)

/-- Every value lies in a cycle of the box of length 7, 4, 3 or 2 (R150). -/
theorem sbox_cycles : ∀ x, IsPeriodicPt sbox 7 x ∨ IsPeriodicPt sbox 4 x ∨ IsPeriodicPt sbox 3 x ∨
    IsPeriodicPt sbox 2 x := by decide

/-- The least common multiple of the lengths of the cycles is 84. -/
theorem iterate_sbox_eq_self_iff (n : Nat) : (∀ x, sbox^[n] x = x) ↔ 84 ∣ n := by
  constructor
  · intro round
    have seven : 7 ∣ n := minimalPeriod_sbox_zero ▸ IsPeriodicPt.minimalPeriod_dvd (round 0x0)
    have four : 4 ∣ n := minimalPeriod_sbox_two ▸ IsPeriodicPt.minimalPeriod_dvd (round 0x2)
    have three : 3 ∣ n := minimalPeriod_sbox_three ▸ IsPeriodicPt.minimalPeriod_dvd (round 0x3)
    omega
  · intro multiple x
    rcases sbox_cycles x with round | round | round | round <;>
      exact round.trans_dvd (Nat.dvd_trans (by decide) multiple)

end

/-- Repeated substitution acts on each nibble by itself (R152). -/
theorem nibble_iterate_sboxlayer (n : Nat) (s : Block) {j : Nat} (hj : j < 16) :
    nibble (sboxlayer^[n] s) j = sbox^[n] (nibble s j) := by
  induction n generalizing s with
  | zero => rfl
  | succ n ih =>
    rw [Function.iterate_succ_apply, ih, nibble_sboxlayer s hj, ← Function.iterate_succ_apply]

theorem iterate_sboxlayer_84 (s : Block) : sboxlayer^[84] s = s := by
  refine block_eq_of_nibbles fun j hj => ?_
  rw [nibble_iterate_sboxlayer 84 s hj, (iterate_sbox_eq_self_iff 84).2 (Nat.dvd_refl 84)]

/-- The block is a nibble that is not back where it began, with zeros above it. -/
theorem exists_iterate_sboxlayer_ne {n : Nat} (pos : 0 < n) (lt : n < 84) :
    ∃ s, sboxlayer^[n] s ≠ s := by
  have short : ¬ 84 ∣ n := Nat.not_dvd_of_pos_of_lt pos lt
  obtain ⟨x, moved⟩ := not_forall.1 (mt (iterate_sbox_eq_self_iff n).1 short)
  have lowest : nibble (x.setWidth 64) 0 = x := by
    apply BitVec.eq_of_getLsbD_eq
    intro r hr
    simp [nibble, hr, Nat.lt_trans hr (show 4 < 64 by decide)]
  refine ⟨x.setWidth 64, fun same => moved ?_⟩
  rw [← lowest, ← nibble_iterate_sboxlayer n _ (by decide), same]

/-- A command that always completes and acts on S by `f`, given n times, acts on S by f n times. -/
theorem runCommands_replicate {i : Instr} {f : Block → Block}
    (acts : ∀ m, ∃ t, exec i m = .next t ∧ t.s = f m.s) (n : Nat) (m : State) :
    ∃ t, runCommands (List.replicate n i) m = .next t ∧ t.s = f^[n] m.s := by
  induction n generalizing m with
  | zero => exact ⟨m, rfl, rfl⟩
  | succ n ih =>
    obtain ⟨u, first, hu⟩ := acts m
    obtain ⟨t, rest, ht⟩ := ih u
    refine ⟨t, ?_, ?_⟩
    · simp only [List.replicate_succ, runCommands, first, rest]
    · rw [ht, hu, Function.iterate_succ_apply]

theorem runCommands_sboxl (n : Nat) (m : State) :
    ∃ t, runCommands (List.replicate n .sboxl) m = .next t ∧ t.s = sboxlayer^[n] m.s :=
  runCommands_replicate (fun m => ⟨_, exec_sboxl m, rfl⟩) n m

theorem runCommands_perml (n : Nat) (m : State) :
    ∃ t, runCommands (List.replicate n .perml) m = .next t ∧ t.s = player^[n] m.s :=
  runCommands_replicate (fun m => ⟨_, exec_perml m, rfl⟩) n m

/-- Settles O28: the box comes round after 84 turns and no fewer, pbox after three. -/
theorem layerCommandsComeRound : Obligations.LayerCommandsComeRound := by
  refine ⟨fun m => ?_, fun n pos lt => ?_, fun m => ?_⟩
  · obtain ⟨t, run, s⟩ := runCommands_sboxl 84 m
    exact ⟨t, run, s.trans (iterate_sboxlayer_84 m.s)⟩
  · obtain ⟨s, moved⟩ := exists_iterate_sboxlayer_ne pos lt
    obtain ⟨t, run, after⟩ := runCommands_sboxl n (State.reset.setS s)
    exact ⟨_, t, run, fun same => moved (after.symm.trans same)⟩
  · obtain ⟨t, run, s⟩ := runCommands_perml 3 m
    exact ⟨t, run, s.trans (player_player_player m.s)⟩

end Sys2Proof.Machine

namespace Sys2Proof.Machine

/-! ## The encryption function (R180) -/

/-- Block i of the chain of R180; past iteration 31 it stays. -/
def chainBlock (rk : Vector Block 32) (s : Block) (i : Nat) : Block :=
  blockAfter rk s (min i 31) (by omega)

theorem chainBlock_eq (rk : Vector Block 32) (s : Block) {i : Nat} (h : i ≤ 31) :
    chainBlock rk s i = blockAfter rk s i (by omega) := by
  simp only [chainBlock, Nat.min_eq_left h]

/-- Settles O32: the chain is `blockAfter`. -/
theorem encryptIntFollowsTheRounds : Obligations.EncryptIntFollowsTheRounds := by
  refine fun rk s => ⟨chainBlock rk s, rfl, ?_, encryptInt_eq rk s⟩
  rintro (_ | i) ⟨pos, le⟩
  · cases pos
  · rw [chainBlock_eq rk s le, blockAfter_full rk s i le, Nat.add_sub_cancel,
      chainBlock_eq rk s (Nat.le_of_succ_le le), addrk]

/-! ## NOP, ENC, LDBLK and STBLK (R174, R181 to R183) -/

/-- Settles O36: NOP's word is 0, and the word 1 has a bit in a field NOP's format does not list. -/
theorem nopChangesNothing : Obligations.NopChangesNothing := by
  refine ⟨exec_nop, fun c => ⟨fun h => ?_, ?_⟩, Laws.reservedBitsAreIllegal 1 (by decide)⟩
  · obtain ⟨-, word⟩ := Laws.encodeOfDecode c .nop h
    exact word.symm
  · rintro rfl
    exact Laws.decodeOfEncode .nop rfl

/-- Settles O39: S is encrypted under the schedule of KEY. -/
theorem encEncryptsTheBlock : Obligations.EncEncryptsTheBlock := by
  intro e len m
  refine ⟨assemble_ordered_toNat 0x3 e, fun bound valid accepted => ?_, fun empty => ?_,
    fun bound refused => ?_⟩
  · rw [exec_enc, if_neg bound, if_pos accepted, ensureSchedule_takeWord_eq valid bound]
    rfl
  · rw [exec_enc, if_pos empty, refusedWith_of_empty _ empty]
  · rw [exec_enc, if_neg bound, if_neg refused, refusedWith_eq]

/-- Settles O40: S is the integer of DIN, whose bytes under either order are those of DIN. -/
theorem ldblkLoadsTheBlock : Obligations.LdblkLoadsTheBlock := by
  intro e len m
  refine ⟨assemble_ordered_toNat 0x4 e, fun accepted => ?_, fun refused => ?_⟩
  · rw [exec_ldblk, if_pos accepted, completed_setS_eq]
    refine ⟨_, rfl, ?_, ?_, rfl⟩
    · rintro rfl
      exact b2i_big_byte m.din
    · rintro rfl
      exact b2i_little_byte m.din
  · rw [exec_ldblk, if_neg refused, refusedWith_eq]

/-- A STBLK changes only DOUT, PHASE and ERR (R183, R173). -/
theorem completed_setDout_eq (bytes : Vector Byte 8) (m : State) :
    ((takeWord m).setDout bytes).setErr .noError = { m with
      dout := bytes, phase := if m.phase = .complete then .ready else m.phase, err := .noError } := by
  rw [takeWord_eq]
  rfl

/-- Settles O41. -/
theorem stblkStoresTheState : Obligations.StblkStoresTheState := by
  refine fun e m => ⟨assemble_ordered_toNat 0x5 e (by decide), ?_⟩
  rw [exec_stblk, completed_setDout_eq]
  refine ⟨_, rfl, ?_, ?_, rfl⟩
  · rintro rfl j
    exact i2b_big_get _ 8 j j.isLt
  · rintro rfl j
    exact i2b_little_get _ 8 j j.isLt

/-! ## The phase (R171, R172) -/

/-- The entry of R171's table, command by command; a refusal is one with an error. -/
theorem exec_phase {i : Instr} {m t : State} (h : exec i m = .next t) :
    t.phase = phaseAfter i (t.err = .noError) m.phase := by
  cases i with
  | nop => cases h; simp only [phaseAfter]
  | stblk | sboxl | perml => cases h; rfl
  | ldkey | ksched | enc | ldblk | addrk | rdrk | rol | ror =>
    simp only [exec_ldkey, exec_ksched, exec_enc, exec_ldblk, exec_addrk, exec_rdrk, exec_rol,
      exec_ror] at h
    split_ifs at h <;> cases h <;> rfl

/-- A command that needs a key is refused in EMPTY (R187, R204). -/
theorem exec_of_empty {i : Instr} {m : State} (empty : m.phase = .empty) (needs : needsKey i = true) :
    exec i m = .next (refusedWith .noKey m) := by
  cases i with
  | ksched => rw [exec_ksched, if_pos empty]
  | enc => rw [exec_enc, if_pos empty]
  | addrk => rw [exec_addrk, if_pos empty]
  | rdrk => rw [exec_rdrk, if_pos empty]
  | _ => cases needs

/-- Settles O49. -/
theorem phaseFollowsTheTable : Obligations.PhaseFollowsTheTable := by
  refine ⟨fun i m => ?_, fun c why m h => ⟨_, executeWord_illegal h m, rfl⟩, fun m => ⟨_, rfl, rfl⟩⟩
  obtain ⟨t, h⟩ := exec_completes i m
  refine ⟨t, h, exec_phase h, fun empty needs => ?_⟩
  cases h.symm.trans (exec_of_empty empty needs)
  rfl

/-- COMPLETE stands in R171's table only where ENC succeeds. -/
theorem phaseAfter_eq_complete {i : Instr} (h : i ≠ .nop) (ok : Bool) (p : Phase) :
    phaseAfter i ok p = .complete ↔ (∃ e len, i = .enc e len) ∧ ok = true := by
  cases i with
  | nop => exact absurd rfl h
  | enc => cases ok <;> simp [phaseAfter, leaveComplete_ne_complete]
  | _ => cases ok <;> simp [phaseAfter, leaveComplete_ne_complete]

/-- All that a command other than NOP sees of a state is what the common step leaves (R172). -/
theorem exec_congr_takeWord {i : Instr} {m m' : State} (hi : i ≠ .nop)
    (h : takeWord m = takeWord m') : exec i m = exec i m' := by
  cases i with
  | nop => exact absurd rfl hi
  | _ =>
    simp only [exec, execLdkey, execKsched, execEnc, execLdblk, execStblk, execAddrk, execSboxl,
      execPerml, execRdrk, execRol, execRor, rotateUr, h]

/-- The common step leaves the same of COMPLETE and of READY (R172). -/
theorem takeWord_of_complete {m : State} (h : m.phase = .complete) :
    takeWord m = takeWord { m with phase := .ready } := by
  rw [takeWord, h]
  rfl

/-- Settles O50: a word is a command, and then the table says it, or illegal, and then it leaves
COMPLETE. -/
theorem completeExactlyAfterEnc : Obligations.CompleteExactlyAfterEnc := by
  refine ⟨fun c m t notNop run => ?_, fun c m notNop complete => ?_⟩
  · cases hd : decode c with
    | command i =>
      have hi : i ≠ .nop := fun h => notNop (h ▸ hd)
      rw [executeWord_command hd] at run
      simp [exec_phase run, phaseAfter_eq_complete hi]
    | illegal why =>
      cases (executeWord_illegal hd m).symm.trans run
      simp [leaveComplete_ne_complete]
  · have taken := takeWord_of_complete complete
    cases hd : decode c with
    | command i =>
      rw [executeWord_command hd, executeWord_command hd]
      exact exec_congr_takeWord (fun h => notNop (h ▸ hd)) taken
    | illegal why => rw [executeWord_illegal hd, executeWord_illegal hd, taken]

/-! ## ENC and its sequence of single commands (R184)

Once the engine is READY with no error, the commands of the sequence update S and DOUT alone, and 31
rounds of them are 31 iterations of R180. The first ADDRK may meet INITIALIZED, where it does what it
does after EnsureSchedule. -/

section
variable {m : State}

theorem takeWord_of_ne_complete (h : m.phase ≠ .complete) : takeWord m = m :=
  congrArg m.setPhase (leaveComplete_of_ne h)

theorem setErr_of_err_eq {e : Err} (h : m.err = e) : m.setErr e = m := by
  subst h
  rfl

theorem setPhase_of_phase_eq {p : Phase} (h : m.phase = p) : m.setPhase p = m := by
  subst h
  rfl

/-- EnsureSchedule reads neither S nor ERR and writes neither (R137). -/
theorem ensureSchedule_setS_setErr (b : Block) (e : Err) :
    ensureSchedule ((m.setS b).setErr e) = ((ensureSchedule m).setS b).setErr e := by
  by_cases h : m.phase = .initialized
  · rw [ensureSchedule_initialized h, ensureSchedule_initialized (by exact h)]
    rfl
  · rw [ensureSchedule_of_ne h, ensureSchedule_of_ne (by exact h)]

/-- With a key bound a command works in READY (R137, R172). -/
theorem ensureSchedule_takeWord_phase (bound : m.phase ≠ .empty) :
    (ensureSchedule (takeWord m)).phase = .ready := by
  by_cases hp : m.phase = .initialized
  · rw [ensureSchedule_initialized (by simpa using hp)]
    rfl
  · rw [ensureSchedule_of_ne (by simpa using hp)]
    exact (leaveComplete_eq_ready _).2 (ready_or_complete bound hp)

/-- In READY a command finds nothing to do before its own work. -/
theorem ensureSchedule_takeWord_of_ready (ready : m.phase = .ready) :
    ensureSchedule (takeWord m) = m := by
  rw [takeWord_of_ne_complete (by simp [ready]), ensureSchedule_of_ne (by simp [ready])]

/-- EnsureSchedule passes over an LDBLK that completed. -/
theorem ensureSchedule_takeWord_loaded (b : Block) :
    ensureSchedule (takeWord (((takeWord m).setS b).setErr .noError)) =
      ((ensureSchedule (takeWord m)).setS b).setErr .noError := by
  rw [takeWord_of_ne_complete (leaveComplete_ne_complete m.phase), ensureSchedule_setS_setErr]

theorem blockInteger_ensureSchedule_takeWord (e : ByteOrder) :
    blockInteger e (ensureSchedule (takeWord m)) = blockInteger e m := by
  simp only [blockInteger, ensureSchedule_din, takeWord_din]

/-- An ADDRK generates the schedule if it must, and so may have been preceded by doing so (R137, R159). -/
theorem exec_addrk_ensured {n : Nat} (range : 1 ≤ n ∧ n ≤ 32) (bound : m.phase ≠ .empty) :
    exec (.addrk n) m = exec (.addrk n) (ensureSchedule (takeWord m)) := by
  have ready := ensureSchedule_takeWord_phase bound
  have bound' : (ensureSchedule (takeWord m)).phase ≠ .empty := by simp [ready]
  rw [exec_addrk, exec_addrk, if_neg bound, if_neg bound', dif_pos range, dif_pos range,
    ensureSchedule_takeWord_of_ready ready]

/-! ### Lists of commands -/

theorem runCommands_cons {i : Instr} {t : State} (h : exec i m = .next t) (is : List Instr) :
    runCommands (i :: is) m = runCommands is t := by
  simp only [runCommands, h]

theorem runCommands_append {is : List Instr} {t : State} (h : runCommands is m = .next t)
    (js : List Instr) : runCommands (is ++ js) m = runCommands js t := by
  induction is generalizing m with
  | nil => cases h; rfl
  | cons i is ih =>
    obtain ⟨u, first⟩ := exec_completes i m
    rw [runCommands_cons first] at h
    rw [List.cons_append, runCommands_cons first, ih h]

theorem fullRounds_succ_eq_cons (n : Nat) : ∃ is, fullRounds (n + 1) = .addrk 1 :: is := by
  induction n with
  | zero => exact ⟨_, rfl⟩
  | succ n ih =>
    obtain ⟨is, h⟩ := ih
    exact ⟨is ++ [.addrk (n + 2), .sboxl, .perml], by rw [fullRounds, h, List.cons_append]⟩

theorem runCommands_fullRounds_ensured (n : Nat) (js : List Instr) (bound : m.phase ≠ .empty) :
    runCommands (fullRounds (n + 1) ++ js) m =
      runCommands (fullRounds (n + 1) ++ js) (ensureSchedule (takeWord m)) := by
  obtain ⟨is, head⟩ := fullRounds_succ_eq_cons n
  obtain ⟨t, first⟩ := exec_completes (.addrk 1) m
  have ensured := (exec_addrk_ensured (by decide) bound).symm.trans first
  rw [head, List.cons_append, runCommands_cons first, runCommands_cons ensured]

/-! ### The commands in READY with no error

The hypotheses are of a state's PHASE and ERR, which an update of S or DOUT leaves as they are. -/

variable (ready : m.phase = .ready) (ok : m.err = .noError)
include ready ok

theorem exec_sboxl_of_ready : exec .sboxl m = .next (m.setS (sboxlayer m.s)) := by
  rw [exec_sboxl, takeWord_of_ne_complete (by simp [ready]), setErr_of_err_eq (by exact ok)]

theorem exec_perml_of_ready : exec .perml m = .next (m.setS (player m.s)) := by
  rw [exec_perml, takeWord_of_ne_complete (by simp [ready]), setErr_of_err_eq (by exact ok)]

theorem exec_stblk_of_ready (e : ByteOrder) :
    exec (.stblk e) m = .next (m.setDout (i2b e m.s 8)) := by
  rw [exec_stblk, takeWord_of_ne_complete (by simp [ready]), setErr_of_err_eq (by exact ok)]

theorem exec_addrk_of_ready {n : Nat} (range : 1 ≤ n ∧ n ≤ 32) :
    exec (.addrk n) m = .next (m.setS (addrk m.s (roundKeyAt m.rk n range))) := by
  rw [exec_addrk, if_neg (by simp [ready]), dif_pos range, ensureSchedule_takeWord_of_ready ready,
    setPhase_of_phase_eq (by exact ready), setErr_of_err_eq (by exact ok)]

theorem runCommands_round {n : Nat} (range : 1 ≤ n ∧ n ≤ 32) :
    runCommands [.addrk n, .sboxl, .perml] m =
      .next (m.setS (player (sboxlayer (addrk m.s (roundKeyAt m.rk n range))))) := by
  rw [runCommands_cons (exec_addrk_of_ready ready ok range),
    runCommands_cons (exec_sboxl_of_ready (by exact ready) (by exact ok)),
    runCommands_cons (exec_perml_of_ready (by exact ready) (by exact ok))]
  rfl

/-- The rounds of the sequence are the full iterations of R180. -/
theorem runCommands_fullRounds (n : Nat) (h : n ≤ 31) :
    runCommands (fullRounds n) m = .next (m.setS (blockAfter m.rk m.s n (by omega))) := by
  induction n with
  | zero => rfl
  | succ n ih =>
    rw [fullRounds, runCommands_append (ih (by omega)), blockAfter_full _ _ n h]
    exact runCommands_round (by exact ready) (by exact ok) _

/-- The sequence after its LDBLK. -/
theorem runCommands_fullRounds_addrk_stblk (e : ByteOrder) :
    runCommands (fullRounds 31 ++ [.addrk 32, .stblk e]) m =
      .next ((m.setS (encryptInt m.rk m.s)).setDout (i2b e (encryptInt m.rk m.s) 8)) := by
  rw [runCommands_append (runCommands_fullRounds ready ok 31 (by decide)), encryptInt_eq,
    runCommands_cons (exec_addrk_of_ready (by exact ready) (by exact ok) (by decide)),
    runCommands_cons (exec_stblk_of_ready (by exact ready) (by exact ok) e)]
  rfl

end

/-- The sequence leaves what ENC leaves, but in READY (R184). -/
theorem runCommands_encSequence (e : ByteOrder) {m : State} (bound : m.phase ≠ .empty) :
    runCommands (encSequence e) m =
      .next ((encrypted e (ensureSchedule (takeWord m))).setPhase .ready) := by
  have ready := ensureSchedule_takeWord_phase bound
  rw [encSequence, runCommands_cons (exec_ldblk e 8 m), if_pos rfl,
    runCommands_fullRounds_ensured 30 _ (by simpa using bound), ensureSchedule_takeWord_loaded,
    runCommands_fullRounds_addrk_stblk (by exact ready) rfl,
    encrypted, blockInteger_ensureSchedule_takeWord, ← ready]
  rfl

/-- Settles O56. -/
theorem encEqualsItsSequence : Obligations.EncEqualsItsSequence := by
  refine ⟨fun _ => rfl, fun e m bound => ⟨_, runCommands_encSequence e bound, rfl, ?_⟩⟩
  rw [exec_enc, if_neg bound, if_pos rfl]
  rfl

end Sys2Proof.Machine

namespace Sys2Proof.Machine

/-! ## Which error a command raises (R200 to R209) -/

section
variable {i : Instr} {m t : State}

/-- The error code a command other than NOP leaves in ERR, from R200's table and the order of checks
of R208; `exec_err` ties it to `exec`. NOP raises none. -/
def errorOf (m : State) : Instr → Err
  | .nop | .stblk _ | .sboxl | .perml => .noError
  | .ldkey _ len => if len = 10 then .noError else .invalidKeySize
  | .ksched => if m.phase = .empty then .noKey else .noError
  | .enc _ len =>
    if m.phase = .empty then .noKey else if len = 8 then .noError else .invalidBlockSize
  | .ldblk _ len => if len = 8 then .noError else .invalidBlockSize
  | .addrk n | .rdrk _ n =>
    if m.phase = .empty then .noKey else if 1 ≤ n ∧ n ≤ 32 then .noError else .invalidOperand
  | .rol _ width | .ror _ width => if badRotation width m then .invalidOperand else .noError

/-- What a command leaves in ERR, command by command (R173, R206). -/
theorem exec_err (hi : i ≠ .nop) (h : exec i m = .next t) : t.err = errorOf m i := by
  cases i with
  | nop => exact absurd rfl hi
  | stblk | sboxl | perml => cases h; rfl
  | ldkey | ksched | enc | ldblk | addrk | rdrk | rol | ror =>
    simp only [exec_ldkey, exec_ksched, exec_enc, exec_ldblk, exec_addrk, exec_rdrk, exec_rol,
      exec_ror] at h
    cases h
    simp only [errorOf]
    split_ifs <;> rfl

/-- A command that ends with an error has done the common step and nothing else (R206). -/
theorem exec_refused (hi : i ≠ .nop) (h : exec i m = .next t) (raised : errorOf m i ≠ .noError) :
    t = refusedWith (errorOf m i) m := by
  rw [← exec_err hi h] at raised ⊢
  cases execTo_of_exec h with
  | nop => exact absurd rfl hi
  | refused => rfl
  | _ => exact absurd rfl raised

/-- R201: LDKEY alone checks a key size. -/
theorem errorOf_eq_invalidKeySize :
    errorOf m i = .invalidKeySize ↔ ∃ e len, i = .ldkey e len ∧ len ≠ 10 := by
  cases i with
  | ldkey => simp [errorOf]
  | _ => simp [errorOf, ite_eq_iff]

/-- R202; without a key ENC does not come to its block size (R208). -/
theorem errorOf_eq_invalidBlockSize :
    errorOf m i = .invalidBlockSize ↔
      ∃ e len, len ≠ 8 ∧ (i = .ldblk e len ∨ (i = .enc e len ∧ m.phase ≠ .empty)) := by
  cases i with
  | ldblk | enc => simp [errorOf, ite_eq_iff, and_comm]
  | _ => simp [errorOf, ite_eq_iff]

/-- R204. -/
theorem errorOf_eq_noKey :
    errorOf m i = .noKey ↔ m.phase = .empty ∧
      (i = .ksched ∨ (∃ e len, i = .enc e len) ∨ (∃ n, i = .addrk n) ∨ (∃ e n, i = .rdrk e n)) := by
  cases i <;> simp [errorOf, ite_eq_iff]

/-- R207; without a key ADDRK and RDRK do not come to their index (R208). -/
theorem errorOf_eq_invalidOperand :
    errorOf m i = .invalidOperand ↔
      (∃ bits width, (i = .rol bits width ∨ i = .ror bits width) ∧ badRotation width m) ∨
      (m.phase ≠ .empty ∧ ∃ n, (n = 0 ∨ 32 < n) ∧ (i = .addrk n ∨ ∃ e, i = .rdrk e n)) := by
  have outside (n : Nat) : ¬ (1 ≤ n ∧ n ≤ 32) ↔ n = 0 ∨ 32 < n := by omega
  cases i with
  | rol | ror => simp [errorOf, or_iff_not_imp_left]
  | addrk | rdrk => simp [errorOf, ite_eq_iff, ← outside]
  | _ => simp [errorOf, ite_eq_iff]

/-- IllegalCommand is for words that are no command (R205), InvalidArgument for nothing (R203). -/
theorem errorOf_ne_illegalCommand_invalidArgument :
    errorOf m i ≠ .illegalCommand ∧ errorOf m i ≠ .invalidArgument := by
  cases i <;> simp [errorOf, ite_eq_iff]

end

/-- Settles O48: the error is the table's, and a refusal is the common step and the error code. -/
theorem errorsRaisedExactlyWhen : Obligations.ErrorsRaisedExactlyWhen := by
  intro i m hi
  obtain ⟨t, h⟩ := exec_completes i m
  obtain ⟨notIllegal, notArgument⟩ :=
    errorOf_ne_illegalCommand_invalidArgument (m := m) (i := i)
  refine ⟨t, h, ?_⟩
  rw [← refusedWith_eq, exec_err hi h]
  exact ⟨errorOf_eq_invalidKeySize, errorOf_eq_invalidBlockSize, errorOf_eq_noKey,
    errorOf_eq_invalidOperand, notIllegal, notArgument, exec_refused hi h⟩

/-- Settles O8: whatever the phase, the common step and the error code (R173). -/
theorem illegalWordRaisesIllegalCommand : Obligations.IllegalWordRaisesIllegalCommand := by
  intro m c why h
  rw [executeWord_illegal h, ← refusedWith_eq]

/-- Settles O9. -/
theorem idleEngineKeepsItsState : Obligations.IdleEngineKeepsItsState := fun _ => step_idle

end Sys2Proof.Machine

namespace Sys2Proof.Machine

/-! ## Reset (R230, R42) -/

/-- Every row of R171's table that ends in EMPTY starts there. -/
theorem phaseAfter_eq_empty {i : Instr} {ok : Bool} {p : Phase} (h : phaseAfter i ok p = .empty) :
    p = .empty := by
  cases i with
  | nop => simpa only [phaseAfter] using h
  | stblk | sboxl | perml | ldblk | rol | ror =>
    exact (leaveComplete_eq_empty p).1 (by simpa only [phaseAfter] using h)
  | ldkey | ksched | enc | addrk | rdrk =>
    cases ok with
    | true => cases h
    | false => exact (leaveComplete_eq_empty p).1 h

/-- No word written to CMD leads back to EMPTY (R171). -/
theorem executeWord_phase_empty {c : Word} {m t : State} (run : executeWord c m = .next t)
    (empty : t.phase = .empty) : m.phase = .empty := by
  rcases executeWord_cases c m with ⟨i, -, command⟩ | illegal
  · exact phaseAfter_eq_empty ((exec_phase (command.symm.trans run)).symm.trans empty)
  · cases illegal.symm.trans run
    exact (leaveComplete_eq_empty _).1 empty

section
variable (m : State)

theorem statusByte_hostReset : statusByte (hostReset m) = 0x00#8 := by
  simp [statusByte, hostReset, Err.code, Phase.code]

theorem hostReset_kin (j : Fin 10) : (hostReset m).kin[j] = Config.resetKin m.draws j := by
  simp [hostReset]

theorem hostReset_din (j : Fin 8) : (hostReset m).din[j] = Config.resetDin m.draws j := by
  simp [hostReset]

theorem hostReset_dout (j : Fin 8) : (hostReset m).dout[j] = Config.resetDout m.draws j := by
  simp [hostReset]

theorem roundKeyAt_hostReset (n : Nat) (h : 1 ≤ n ∧ n ≤ 32) :
    roundKeyAt (hostReset m).rk n h = Config.resetRk m.draws n := by
  simp [roundKeyAt, hostReset, Nat.sub_add_cancel h.1]

end

/-- Settles O17: of the three things a step can do, the host's accesses keep PHASE, no word leads to
EMPTY from another phase, and the third is reset. -/
theorem onlyResetLeadsToEmpty : Obligations.OnlyResetLeadsToEmpty := by
  constructor
  · intro m rest hp
    exact ⟨_, step_cons hp, rfl, rfl, statusByte_hostReset _, hostReset_kin _, hostReset_din _,
      hostReset_dout _, roundKeyAt_hostReset _, rfl, rfl, rfl, rfl, rfl, rfl, rfl⟩
  · intro m t h bound empty
    rcases step_next_cases h with ⟨_, _, _, _, _, rfl⟩ | ⟨c, rest, -, run⟩ | ⟨rest, hp, -⟩
    · exact absurd empty bound
    · exact absurd (executeWord_phase_empty run empty) bound
    · exact ⟨rest, hp⟩

end Sys2Proof.Machine

namespace Sys2Proof.Machine

/-! ## The work of a command (R244, R245) -/

/-- A command is refused when the order of checks of R208 ends in an error. -/
theorem isRefused_eq (i : Instr) (m : State) : isRefused i m = decide (errorOf m i ≠ .noError) := by
  obtain ⟨t, h⟩ := exec_completes i m
  by_cases hi : i = .nop
  · subst hi
    rfl
  · simp [isRefused, h, hi, exec_err hi h]

/-- A command that passes its checks does its row's work, and EnsureSchedule's when it generates. -/
theorem workAt_of_accepted {i : Instr} {m : State} {generates : Bool} (ok : errorOf m i = .noError)
    (phase : decide (m.phase = .initialized) = generates) :
    workAt i m = work i false generates := by
  rw [workAt, isRefused_eq, phase, ok]
  rfl

section
variable {i : Instr} {m : State}

/-- In INITIALIZED a command that passes its checks with a key bound finds no schedule. -/
theorem workAt_of_initialized (h : m.phase = .initialized)
    (ok : m.phase ≠ .empty → errorOf m i = .noError) : workAt i m = work i false true :=
  workAt_of_accepted (ok (by simp [h])) (by simp [h])

/-- In READY and COMPLETE a command that passes its checks with a key bound finds the schedule. -/
theorem workAt_of_ready_or_complete (h : m.phase = .ready ∨ m.phase = .complete)
    (ok : m.phase ≠ .empty → errorOf m i = .noError) : workAt i m = work i false false := by
  rcases h with h | h
  · exact workAt_of_accepted (ok (by simp [h])) (by simp [h])
  · exact workAt_of_accepted (ok (by simp [h])) (by simp [h])

theorem errorOf_enc_of_bound (e : ByteOrder) (bound : m.phase ≠ .empty) :
    errorOf m (.enc e 8) = .noError := by
  rw [errorOf, if_neg bound, if_pos rfl]

theorem errorOf_addrk_of_bound {n : Nat} (range : 1 ≤ n ∧ n ≤ 32) (bound : m.phase ≠ .empty) :
    errorOf m (.addrk n) = .noError := by
  rw [errorOf, if_neg bound, if_pos range]

theorem errorOf_rdrk_of_bound (e : ByteOrder) {n : Nat} (range : 1 ≤ n ∧ n ≤ 32)
    (bound : m.phase ≠ .empty) : errorOf m (.rdrk e n) = .noError := by
  rw [errorOf, if_neg bound, if_pos range]

end

/-! ### The opcode alone decides the row (R244) -/

/-- The command that an opcode's row of R83 makes of zeros in every other field; NOP for the opcodes
without a row. -/
def commandOfOpcode (op : BitVec 4) : Instr :=
  match opcodeMap[op.toNat]? with
  | some row => row.build .big 0 0 0
  | none => .nop

theorem fieldOp_encode (i : Instr) : fieldOp (encode i) = Laws.opcodeOf i := by
  cases i <;> exact Laws.fieldOp_assemble ..

theorem work_eq_work_commandOfOpcode (i : Instr) (refused generates : Bool) :
    work i refused generates = work (commandOfOpcode (fieldOp (encode i))) refused generates := by
  rw [fieldOp_encode]
  cases i <;> rfl

/-- Settles O53: each row from the checks its command passes, and R244 from the row being the
opcode's. -/
theorem workFollowsTheTable : Obligations.WorkFollowsTheTable := by
  constructor
  · intro m
    refine ⟨workAt_of_accepted rfl rfl,
      fun _ => workAt_of_accepted rfl rfl,
      fun bound => workAt_of_accepted (if_neg bound) rfl,
      fun valid e => workAt_of_ready_or_complete valid (errorOf_enc_of_bound e),
      fun initialized e => workAt_of_initialized initialized (errorOf_enc_of_bound e),
      fun _ => workAt_of_accepted rfl rfl,
      fun _ => workAt_of_accepted rfl rfl,
      fun n range => ⟨fun valid => workAt_of_ready_or_complete valid (errorOf_addrk_of_bound range),
        fun initialized => workAt_of_initialized initialized (errorOf_addrk_of_bound range)⟩,
      workAt_of_accepted rfl rfl,
      workAt_of_accepted rfl rfl,
      fun e n range => ⟨fun valid => workAt_of_ready_or_complete valid (errorOf_rdrk_of_bound e range),
        fun initialized => workAt_of_initialized initialized (errorOf_rdrk_of_bound e range)⟩,
      fun bits width pos le fits => ?_,
      fun _ => workAt_of_refused⟩
    have good : ¬ badRotation width m := by
      simp only [badRotation]
      omega
    exact ⟨workAt_of_accepted (if_neg good) rfl, workAt_of_accepted (if_neg good) rfl⟩
  · intro i i' m m' opcode refused initialized
    rw [workAt, workAt, work_eq_work_commandOfOpcode i, work_eq_work_commandOfOpcode i', opcode, refused,
      decide_eq_decide.2 initialized]

end Sys2Proof.Machine

namespace Sys2Proof.Machine

/-! ## What the spec infers about the boxes and the layers (R151 to R155) -/

/-- R154 read at the output: pbox applied twice is the position a bit comes from. -/
theorem getLsbD_player_eq (s : Block) {q : Nat} (hq : q < 64) :
    (player s).getLsbD q = s.getLsbD (pbox (pbox q)) := by
  rw [← getLsbD_player_pbox s (pbox_lt (pbox_lt hq)), pbox_pbox_pbox hq]

/-- pbox carries the 1 bits of a block one to one onto those of its permuted block. -/
theorem ones_player (s : Block) : ones (player s) = ones s := by
  refine (Finset.card_nbij' pbox (fun q => pbox (pbox q)) ?_ ?_ ?_ ?_).symm
  all_goals
    intro p hp
    simp only [Finset.mem_coe, Finset.mem_filter, Finset.mem_range] at hp ⊢
    obtain ⟨inside, one⟩ := hp
  · exact ⟨pbox_lt inside, (getLsbD_player_pbox s inside).trans one⟩
  · exact ⟨pbox_lt (pbox_lt inside), (getLsbD_player_eq s inside).symm.trans one⟩
  · exact pbox_pbox_pbox inside
  · exact pbox_pbox_pbox inside

/-- Each output bit is one input bit, and XOR acts bit by bit. -/
theorem player_xor (a b : Block) : player (a ^^^ b) = player a ^^^ player b := by
  apply BitVec.eq_of_getLsbD_eq
  intro q hq
  rw [BitVec.getLsbD_xor, getLsbD_player_eq _ hq, getLsbD_player_eq _ hq, getLsbD_player_eq _ hq,
    BitVec.getLsbD_xor]

/-- Settles O27: on blocks, of which there are finitely many, an injective layer is a bijection. -/
theorem layersAreBijective : Obligations.LayersAreBijective :=
  ⟨Finite.injective_iff_bijective.1 sboxlayer_injective,
    Finite.injective_iff_bijective.1 player_injective, ones_player, player_xor⟩

/-- R151. -/
theorem sbox_ne_self : ∀ x, sbox x ≠ x := by decide

/-- With p = 4k + r, 16p is 63k + (16r + k), and below 63 the second part is the remainder (R153). -/
theorem pbox_eq_mod {p : Nat} (hp : p < 63) : pbox p = 16 * p % 63 := by
  unfold pbox
  omega

/-- With p = 4k + r, pbox(p) = p says k = 5r, so p = 21r (R155). -/
theorem pbox_eq_self_iff {p : Nat} (hp : p < 64) :
    pbox p = p ↔ p = 0 ∨ p = 21 ∨ p = 42 ∨ p = 63 := by
  unfold pbox
  omega

/-- Settles O25. -/
theorem boxesHaveTheInferredFixedPoints : Obligations.BoxesHaveTheInferredFixedPoints :=
  ⟨sbox_ne_self, fun _ hp => pbox_eq_mod hp, rfl, fun _ hp => pbox_eq_self_iff hp⟩

/-- Settles O6: the decoder run on the twelve words. -/
theorem sampleWordsDecode : Obligations.SampleWordsDecode := by
  unfold Obligations.SampleWordsDecode
  decide

end Sys2Proof.Machine
